-- ==== Sys2Proof/Word.lean ====
section
/-! DEFINITION. The bit-vector types of the block (00_scope.md R8, R9; 30_encoding.md R62, R64) and the type of rendered text
(00_scope.md R11). -/

namespace Sys2Proof

/-- `u32`: an instruction word, an address, a branch target (R8 WORD_W and ADDR_W, R10). -/
abbrev Word := BitVec 32

/-- A RegisterIndex: unsigned, 5 bits, 0 to 31, all legal (R8 REG_INDEX_W, R21). -/
abbrev RegIndex := BitVec 5

/-- An opcode or a function code: unsigned, 6 bits, 0 to 63 (R8 OPCODE_W and FUNCT_W, R66). -/
abbrev Code := BitVec 6

/-- The bit pattern of a 16-bit immediate field (R8 IMM_W, R64). -/
abbrev Imm := BitVec 16

/-- A rendered string: "a sequence of characters" (R11) of the repertoire of R85. -/
abbrev Text := List Char

end Sys2Proof
end

