-- ==== Sys2Proof/Config.lean ====
section
/-! DEFINITION. The configuration record CFG, captured at reset (10_state.md R32; 40_decode_datapath.md R108; 00_scope.md R8), and
the default values the spec names. -/

namespace Sys2Proof

/-- CFG.REG_NAMING: how a register index is rendered (R32, R84). -/
inductive Naming where
  | numeric
  | abi
deriving DecidableEq, Repr

/-- The configuration record of R32 and R108. Every value of every field is legal. -/
structure Config where
  /-- CFG.BASE, the sequencer's start address. -/
  base : Word
  /-- CFG.SEQ_EN: true = the sequencer supplies addresses, false = they come from `addr_in`. -/
  seqEn : Bool
  /-- CFG.REG_NAMING. -/
  naming : Naming
  /-- CFG.STRICT: true = halt on the first unsupported word. -/
  strict : Bool
deriving DecidableEq, Repr

/-- The defaults of R8 and R32: BASE = 0x0007A05C, REG_NAMING = NUMERIC, STRICT = 0.
DESIGN CHOICE (log entry 1): R32 gives SEQ_EN no default; the model takes 1, the mode in which the fixture base of R8 is used. -/
def Config.fixtureDefault : Config :=
  { base := 0x0007A05C#32, seqEn := true, naming := .numeric, strict := false }

end Sys2Proof
end

