-- ==== Sys2Proof/Syntax.lean ====
section
/-! DEFINITION. The instruction type, one constructor per row of spec/opcode_table.json, and the names and records the decode
result is made of (00_scope.md R12, R13; 40_decode_datapath.md R92, R93, R98, R108; 60_exceptions.md R141). -/

namespace Sys2Proof

/-- Format (R13, R61, R91): determined solely by bits 31–26. The `fmt` output is 0 for R and 1 for I. -/
inductive Fmt where
  | rFormat
  | iFormat
deriving DecidableEq, Repr

/-- Operand class (R94, R98). -/
inductive OperandClass where
  | arith
  | mem
  | branch
deriving DecidableEq, Repr

/-- The nine mnemonics, in the order of their ids (R98). -/
inductive Mnem where
  | add | sub | and | or | slt | lw | sw | beq | bne
deriving DecidableEq, Repr

/-- The cause of an `UnsupportedEncoding` (R141). -/
inductive ErrKind where
  | opcode
  | funct
deriving DecidableEq, Repr

/-- DecodedR, the output of the R field decoder (R92). -/
structure DecodedR where
  rs : RegIndex
  rt : RegIndex
  rd : RegIndex
  funct : Code
deriving DecidableEq, Repr

/-- DecodedI, the output of the I field decoder (R93): `imm16` is the immediate's bit pattern. -/
structure DecodedI where
  opcode : Code
  rs : RegIndex
  rt : RegIndex
  imm16 : Imm
deriving DecidableEq, Repr

/-- The `fields` of an `Ok` result (R103, R108). -/
inductive Fields where
  | r (d : DecodedR)
  | i (d : DecodedI)
deriving DecidableEq, Repr

/-- The fields that reach the renderer, with the branch target where there is one: one constructor per operand class (R94). -/
inductive Operands where
  | arith (d : DecodedR)
  | mem (d : DecodedI)
  | branch (d : DecodedI) (target : Word)
deriving DecidableEq, Repr

/-- One operand slot of the rendered text (R94). -/
inductive Slot where
  /-- a register -/
  | reg (n : RegIndex)
  /-- a displacement, signed decimal -/
  | disp (v : Int)
  /-- a base register, in parentheses -/
  | base (n : RegIndex)
  /-- a branch target, uppercase hexadecimal -/
  | target (t : Word)
deriving DecidableEq, Repr

/-- The nine instructions (R3, R70, R71), operands in the word's field order. `ignored` is bits 10–6 of an R-format word, which no
rule reads (R63); it stands here so that an instruction determines its word. `simm` is the signed immediate (R67: `signed16(imm16)`,
the source's `immediate: i16`): a displacement for lw and sw (R68), a word offset for beq and bne (R69). -/
inductive Instr where
  | add (rs rt rd : RegIndex) (ignored : BitVec 5)
  | sub (rs rt rd : RegIndex) (ignored : BitVec 5)
  | and (rs rt rd : RegIndex) (ignored : BitVec 5)
  | or (rs rt rd : RegIndex) (ignored : BitVec 5)
  | slt (rs rt rd : RegIndex) (ignored : BitVec 5)
  | lw (rs rt : RegIndex) (simm : Int)
  | sw (rs rt : RegIndex) (simm : Int)
  | beq (rs rt : RegIndex) (simm : Int)
  | bne (rs rt : RegIndex) (simm : Int)
deriving DecidableEq, Repr

/-- The instruction's mnemonic. -/
def Instr.mnem : Instr → Mnem
  | .add _ _ _ _ => .add
  | .sub _ _ _ _ => .sub
  | .and _ _ _ _ => .and
  | .or _ _ _ _ => .or
  | .slt _ _ _ _ => .slt
  | .lw _ _ _ => .lw
  | .sw _ _ _ => .sw
  | .beq _ _ _ => .beq
  | .bne _ _ _ => .bne

end Sys2Proof
end

