-- ==== Sys2Proof/WellFormed.lean ====
section
/-! DEFINITION. Which terms of `Instr` are instructions of the hardware. Register fields and the ignored bits are bounded by their
types (10_state.md R21: all 32 indices are legal everywhere); a signed immediate must lie in the range of a 16-bit two's-complement
value (00_scope.md R10, 30_encoding.md R67). -/

namespace Sys2Proof

/-- The range of `signed16`: -32768 to 32767 (R10). -/
def simmInRange (simm : Int) : Bool :=
  decide (-32768 ≤ simm) && decide (simm ≤ 32767)

/-- An instruction is well formed when its immediate, if it has one, is in range. -/
def Instr.wellFormed : Instr → Bool
  | .add _ _ _ _ => true
  | .sub _ _ _ _ => true
  | .and _ _ _ _ => true
  | .or _ _ _ _ => true
  | .slt _ _ _ _ => true
  | .lw _ _ simm => simmInRange simm
  | .sw _ _ simm => simmInRange simm
  | .beq _ _ simm => simmInRange simm
  | .bne _ _ simm => simmInRange simm

end Sys2Proof
end

