-- ==== Sys2Proof/Decode.lean ====
section
/-! DEFINITION. The units that turn a word into an instruction (40_decode_datapath.md R90 to R98): the format classifier, the field
decoder, the two mnemonic ROMs and the resolver; the decoder over them; then the encoder, written from 30_encoding.md R62, R64, R70
and R71; and the opcode table as masks and match values. -/

namespace Sys2Proof

/-! ### Field extraction (R62, R64, R65) -/

/-- Bits 31–26. -/
def opcodeOf (w : Word) : Code := w.extractLsb' 26 6
/-- Bits 25–21. -/
def rsOf (w : Word) : RegIndex := w.extractLsb' 21 5
/-- Bits 20–16. -/
def rtOf (w : Word) : RegIndex := w.extractLsb' 16 5
/-- Bits 15–11, an R-format field only. -/
def rdOf (w : Word) : RegIndex := w.extractLsb' 11 5
/-- Bits 10–6 of an R-format word: no field of the block, read by no rule (R63). -/
def ignoredOf (w : Word) : BitVec 5 := w.extractLsb' 6 5
/-- Bits 5–0, an R-format field only. -/
def functOf (w : Word) : Code := w.extractLsb' 0 6
/-- Bits 15–0, an I-format field only. -/
def immOf (w : Word) : Imm := w.extractLsb' 0 16

/-- `signed16` (R10, R67): the two's-complement reading of a 16-bit value. -/
def signed16 (v : Imm) : Int := v.toInt

/-- The bit pattern of a signed immediate (the inverse of `signed16` on its range). -/
def imm16Of (simm : Int) : Imm := BitVec.ofInt 16 simm

/-- `sext_32` (R10) of a 16-bit value. -/
def sext32 (v : Imm) : Word := v.signExtend 32

/-! ### Format classifier (R61, R91) and field decoder (R92, R93) -/

/-- `classify` (R91): total over all words. -/
def classify (w : Word) : Fmt :=
  if opcodeOf w = 0#6 then .rFormat else .iFormat

/-- `decodeR` (R92). -/
def decodeR (w : Word) : DecodedR :=
  { rs := rsOf w, rt := rtOf w, rd := rdOf w, funct := functOf w }

/-- `decodeI` (R93). -/
def decodeI (w : Word) : DecodedI :=
  { opcode := opcodeOf w, rs := rsOf w, rt := rtOf w, imm16 := immOf w }

/-! ### Mnemonic ids and classes (R98) -/

/-- The nine mnemonics in the order of R98. -/
def allMnems : List Mnem :=
  [.add, .sub, .and, .or, .slt, .lw, .sw, .beq, .bne]

/-- The 4-bit mnemonic id (R98). -/
def mnemId : Mnem → BitVec 4
  | .add => 0#4
  | .sub => 1#4
  | .and => 2#4
  | .or => 3#4
  | .slt => 4#4
  | .lw => 5#4
  | .sw => 6#4
  | .beq => 7#4
  | .bne => 8#4

/-- The mnemonic with a given id; ids 9 to 15 name none (R98). -/
def mnemOfId (k : BitVec 4) : Option Mnem :=
  allMnems.find? (fun m => mnemId m == k)

/-- The operand class of a mnemonic (R98). -/
def classOf : Mnem → OperandClass
  | .add => .arith
  | .sub => .arith
  | .and => .arith
  | .or => .arith
  | .slt => .arith
  | .lw => .mem
  | .sw => .mem
  | .beq => .branch
  | .bne => .branch

/-- The selecting field value of a mnemonic (R98): funct for the R format (R70), opcode for the I format (R71). -/
def selectorOf : Mnem → Code
  | .add => 0x20#6
  | .sub => 0x22#6
  | .and => 0x24#6
  | .or => 0x25#6
  | .slt => 0x2A#6
  | .lw => 0x23#6
  | .sw => 0x2B#6
  | .beq => 0x04#6
  | .bne => 0x05#6

/-! ### The mnemonic ROMs (R33, R95, R96) -/

/-- One 5-bit ROM entry: a valid bit and a 4-bit mnemonic id (R95). -/
structure RomEntry where
  valid : Bool
  id : BitVec 4
deriving DecidableEq, Repr

/-- The entry of an index that names no mnemonic: valid = 0, id = 0 (unused) (R95, R96). -/
def emptyEntry : RomEntry := { valid := false, id := 0#4 }

/-- A 64-entry ROM with the given valid rows (index, id); every other entry is empty. -/
def romOf (rows : List (Nat × BitVec 4)) : List RomEntry :=
  (List.range 64).map fun k =>
    match rows.lookup k with
    | some id => { valid := true, id := id }
    | none => emptyEntry

/-- The contents of R_ROM, indexed by funct (R95). -/
def rRomContents : List RomEntry :=
  romOf [(0x20, 0#4), (0x22, 1#4), (0x24, 2#4), (0x25, 3#4), (0x2A, 4#4)]

/-- The contents of I_ROM, indexed by opcode (R96). Entry 0x00 is empty and never read. -/
def iRomContents : List RomEntry :=
  romOf [(0x04, 7#4), (0x05, 8#4), (0x23, 5#4), (0x2B, 6#4)]

/-- The two ROMs as the state holds them. Their contents are fixed at build time and never change (R33), so the record carries the
proof that it holds them: no other value of this type exists. -/
structure Roms where
  r : List RomEntry
  i : List RomEntry
  r_fixed : r = rRomContents
  i_fixed : i = iRomContents
deriving DecidableEq, Repr

/-- The ROMs of the built block. -/
def builtRoms : Roms :=
  { r := rRomContents, i := iRomContents, r_fixed := rfl, i_fixed := rfl }

/-- `R_ROM[k]` or `I_ROM[k]` (R10, R95, R96). -/
def romRead (rom : List RomEntry) (k : Code) : RomEntry :=
  rom.getD k.toNat emptyEntry

/-- The mnemonic resolver (R97): exact index, no default; an entry with valid = 0 is a failure. -/
def resolve (rom : List RomEntry) (k : Code) : Option Mnem :=
  if (romRead rom k).valid then mnemOfId (romRead rom k).id else none

/-! ### The decoder -/

/-- What a word decodes to: one of the nine instructions, or `UnsupportedEncoding` with its cause and code (R74, R141). -/
inductive Decoded where
  | instr (i : Instr)
  | unsupported (kind : ErrKind) (code : Code)
deriving DecidableEq, Repr

/-- The R-format instruction of a mnemonic and its decoded fields. R_ROM gives no I-format mnemonic (R95). -/
def rInstr (d : DecodedR) (ignored : BitVec 5) : Mnem → Option Instr
  | .add => some (.add d.rs d.rt d.rd ignored)
  | .sub => some (.sub d.rs d.rt d.rd ignored)
  | .and => some (.and d.rs d.rt d.rd ignored)
  | .or => some (.or d.rs d.rt d.rd ignored)
  | .slt => some (.slt d.rs d.rt d.rd ignored)
  | .lw => none
  | .sw => none
  | .beq => none
  | .bne => none

/-- The I-format instruction of a mnemonic and its decoded fields. I_ROM gives no R-format mnemonic (R96). -/
def iInstr (d : DecodedI) : Mnem → Option Instr
  | .lw => some (.lw d.rs d.rt (signed16 d.imm16))
  | .sw => some (.sw d.rs d.rt (signed16 d.imm16))
  | .beq => some (.beq d.rs d.rt (signed16 d.imm16))
  | .bne => some (.bne d.rs d.rt (signed16 d.imm16))
  | .add => none
  | .sub => none
  | .and => none
  | .or => none
  | .slt => none

/-- The decoder over given ROMs, total on every word (R90, R91, R97, R141): RFormat words go to the R field decoder and R_ROM, IFormat
words to the I field decoder and I_ROM; what the tables do not hold is rejected with its cause and the offending code. -/
def decodeWord (roms : Roms) (w : Word) : Decoded :=
  match classify w with
  | .rFormat =>
    match (resolve roms.r (functOf w)).bind (rInstr (decodeR w) (ignoredOf w)) with
    | some i => .instr i
    | none => .unsupported .funct (functOf w)
  | .iFormat =>
    match (resolve roms.i (opcodeOf w)).bind (iInstr (decodeI w)) with
    | some i => .instr i
    | none => .unsupported .opcode (opcodeOf w)

/-! ### The encoder (from R62, R64, R70, R71) -/

/-- A field's bits at their place in a word, every other bit 0. -/
def placeField {n : Nat} (v : BitVec n) (lo : Nat) : Word := v.setWidth 32 <<< lo

/-- An R-format word: `000000 sssss ttttt ddddd xxxxx ffffff` (R62). -/
def encodeR (rs rt rd : RegIndex) (ignored : BitVec 5) (funct : Code) : Word :=
  placeField rs 21 ||| placeField rt 16 ||| placeField rd 11 ||| placeField ignored 6 ||| placeField funct 0

/-- An I-format word: `oooooo sssss ttttt iiiiiiiiiiiiiiii` (R64). -/
def encodeI (opcode : Code) (rs rt : RegIndex) (imm16 : Imm) : Word :=
  placeField opcode 26 ||| placeField rs 21 ||| placeField rt 16 ||| placeField imm16 0

/-- The word of an instruction. -/
def encode : Instr → Word
  | .add rs rt rd ignored => encodeR rs rt rd ignored 0x20#6
  | .sub rs rt rd ignored => encodeR rs rt rd ignored 0x22#6
  | .and rs rt rd ignored => encodeR rs rt rd ignored 0x24#6
  | .or rs rt rd ignored => encodeR rs rt rd ignored 0x25#6
  | .slt rs rt rd ignored => encodeR rs rt rd ignored 0x2A#6
  | .lw rs rt simm => encodeI 0x23#6 rs rt (imm16Of simm)
  | .sw rs rt simm => encodeI 0x2B#6 rs rt (imm16Of simm)
  | .beq rs rt simm => encodeI 0x04#6 rs rt (imm16Of simm)
  | .bne rs rt simm => encodeI 0x05#6 rs rt (imm16Of simm)

/-! ### The opcode table (spec/opcode_table.json) -/

/-- One row: a word matches it when `word &&& mask = pattern`. -/
structure TableRow where
  mnem : Mnem
  mask : Word
  pattern : Word
deriving DecidableEq, Repr

/-- The `mask` and `match` columns of the table (R110 to R114, R120, R121, R130, R131). -/
def opcodeTable : List TableRow :=
  [{ mnem := .add, mask := 0xFC00003F#32, pattern := 0x00000020#32 },
   { mnem := .sub, mask := 0xFC00003F#32, pattern := 0x00000022#32 },
   { mnem := .and, mask := 0xFC00003F#32, pattern := 0x00000024#32 },
   { mnem := .or, mask := 0xFC00003F#32, pattern := 0x00000025#32 },
   { mnem := .slt, mask := 0xFC00003F#32, pattern := 0x0000002A#32 },
   { mnem := .lw, mask := 0xFC000000#32, pattern := 0x8C000000#32 },
   { mnem := .sw, mask := 0xFC000000#32, pattern := 0xAC000000#32 },
   { mnem := .beq, mask := 0xFC000000#32, pattern := 0x10000000#32 },
   { mnem := .bne, mask := 0xFC000000#32, pattern := 0x14000000#32 }]

/-- Whether a word matches a row. -/
def TableRow.matchesWord (row : TableRow) (w : Word) : Bool :=
  w &&& row.mask == row.pattern

/-! ### The host's view of the decoder -/

/-- The word whose low `nbits` bits are those of `w`, every bit above them 0. The block takes whole 32-bit words and has no byte order
(20_memory.md R41), so bit `k` of the word is bit `k` of the table. -/
def tableWord (nbits w : Nat) : Word := BitVec.ofNat 32 (w % 2 ^ nbits)

/-- What the decoder reads from an instruction whose bits are `w`, numbered as the opcode table numbers them. -/
def decodeTableWord (nbits w : Nat) : Option Instr :=
  match decodeWord builtRoms (tableWord nbits w) with
  | .instr i => some i
  | .unsupported _ _ => none

end Sys2Proof
end

