-- ==== Sys2Proof/Machine/State.lean ====
section
/-! DEFINITION. The state of the block as plain data (10_state.md R24, R30, R32, R33, R34, R36), the decode results it emits
(40_decode_datapath.md R103, R104; 60_exceptions.md R142), its ports (R34), and the reasons a step can stop. -/

namespace Sys2Proof.Machine

/-- The record of an `Ok` result (R103, R108). -/
structure OkRecord where
  addr : Word
  word : Word
  fmt : Fmt
  mnem : Mnem
  fields : Fields
  target : Option Word
  text : Text
deriving DecidableEq, Repr

/-- The record of an `Err` result (R142, R108). -/
structure ErrRecord where
  addr : Word
  word : Word
  kind : ErrKind
  code : Code
deriving DecidableEq, Repr

/-- A decode result (R12, R108). -/
inductive Result where
  | ok (r : OkRecord)
  | err (e : ErrRecord)
deriving DecidableEq, Repr

/-- What the caller puts on the input ports at one step (R34). -/
structure InPorts where
  /-- `rst`: reset request. -/
  rst : Bool
  /-- `cfg_base`: BASE, captured at reset. -/
  cfgBase : Word
  /-- `cfg_seq_en`: SEQ_EN, captured at reset. -/
  cfgSeqEn : Bool
  /-- `cfg_reg_naming`: false = 0 = NUMERIC, true = 1 = ABI (R32), captured at reset. -/
  cfgRegNaming : Bool
  /-- `cfg_strict`: STRICT, captured at reset. -/
  cfgStrict : Bool
  /-- `in_valid`: a word is presented. -/
  inValid : Bool
  /-- `word_in`: the instruction word. -/
  wordIn : Word
  /-- `addr_in`: the word's address, used when SEQ_EN = 0. -/
  addrIn : Word
deriving DecidableEq, Repr

/-- The output ports (R34). A port that carries no value is `none` (R34, R104, R161, decision D19). -/
structure OutPorts where
  outValid : Bool
  ok : Option Bool
  errKind : Option (BitVec 1)
  errCode : Option Code
  curAddr : Option Word
  wordOut : Option Word
  fmt : Option (BitVec 1)
  mnem : Option (BitVec 4)
  opcode : Option Code
  rs : Option RegIndex
  rt : Option RegIndex
  rd : Option RegIndex
  funct : Option Code
  imm : Option Imm
  hasTarget : Option Bool
  target : Option Word
  text : Option Text
  addrText : Option Text
  halted : Option Bool
deriving DecidableEq, Repr

/-- The state. `seqAddr` and `halted` are the block's only mutable state (R38); `cfg` changes at reset only (R32); `roms` never
changes (R33). `inputs` is what the caller still has to present, one entry a step, in order (R47). `out` is the result on the output
ports after the latest step (`none`: `out_valid` = 0). `results` is the observation of R106: the results of the run so far, oldest
first. -/
structure State where
  /-- SEQ_ADDR, the sequencer's counter (R24). -/
  seqAddr : Word
  /-- HALTED (R30). -/
  halted : Bool
  /-- CFG (R32). -/
  cfg : Config
  /-- R_ROM and I_ROM (R33, R95, R96). -/
  roms : Roms
  /-- The input ports of the coming steps (R34, R47). -/
  inputs : List InPorts
  /-- The result on the output ports (R34); the ports themselves are its projection (`State.outPorts`). -/
  out : Option Result
  /-- The observation of the run (R106). -/
  results : List Result
deriving DecidableEq, Repr

/-- Why a step stops. Neither is raised by an instruction: each is an end of the run that R106 names. -/
inductive Fault where
  /-- Raised by `fetch` when the input sequence is exhausted (R106): there is nothing left to present (and by `emitResult` where a meaning
  is called outside `step` with no word on the ports, log entry 13). Safe: the model stops where the block would hold its state. -/
  | inputExhausted
  /-- Raised by `fetch` when a word is presented while HALTED = 1 (R107): the block has no step and the run is over; the word is not
  consumed. Safe: it is the spec's own end of run. -/
  | halted
deriving DecidableEq, Repr

/-- Why an instruction has no meaning. -/
inductive Refusal where
  /-- Raised by an arm of `exec` that has no meaning yet. No arm raises it: all nine instructions are modelled. Safe: the model stops. -/
  | notModelled (mnemonic : String)
deriving DecidableEq, Repr

/-- `reset : Config → State` (R108, R160, R36): CFG captured, SEQ_ADDR = BASE, HALTED = 0, the ROMs' fixed contents, no output value
(R161), and a run with no input and no result yet. -/
def State.resetWith (c : Config) : State :=
  { seqAddr := c.base, halted := false, cfg := c, roms := builtRoms, inputs := [], out := none, results := [] }

/-- The machine right after a reset with the default configuration. The caller presents the words (R161): `inputs` lists none. -/
def State.reset : State := State.resetWith Config.fixtureDefault

end Sys2Proof.Machine
end

