-- ==== Sys2Proof/Machine/Operands.lean ====
section
/-! DEFINITION. Operand assembly and rendering: the text primitives (30_encoding.md R80 to R84, R86, R89), the branch-target address
adder (R69; 40_decode_datapath.md R99), the operand-slot multiplexer (R94) and the renderer (R75 to R78, R100). -/

namespace Sys2Proof.Machine

/-! ### Numerals (R80 to R83) -/

/-- The digits of `n` in a base, most significant first, by at most `fuel` divisions. -/
def digitsFuel (base : Nat) : Nat → Nat → List Nat
  | 0, _ => []
  | fuel + 1, n => if n < base then [n] else digitsFuel base fuel (n / base) ++ [n % base]

/-- The shortest digit list that denotes `n` in a base of 2 or more; zero is the one digit 0 (R80, R82). -/
def digits (base n : Nat) : List Nat := digitsFuel base (n + 1) n

/-- The digit characters `0`–`9` and `a`–`f` (R80, R82). -/
def digitChars : List Char :=
  ['0', '1', '2', '3', '4', '5', '6', '7', '8', '9'] ++ ['a', 'b', 'c', 'd', 'e', 'f']

/-- The character of one digit. -/
def digitChar (d : Nat) : Char := digitChars.getD d '0'

/-- `dec` (R80). -/
def dec (n : Nat) : Text := (digits 10 n).map digitChar

/-- `sdec` (R81). -/
def sdec (v : Int) : Text :=
  if v < 0 then '-' :: dec (-v).toNat else dec v.toNat

/-- `hexL` (R82). -/
def hexL (x : Word) : Text := (digits 16 x.toNat).map digitChar

/-- `a`–`f` replaced by `A`–`F` (R83). -/
def upperHexChar (c : Char) : Char :=
  if c = 'a' then 'A'
  else if c = 'b' then 'B'
  else if c = 'c' then 'C'
  else if c = 'd' then 'D'
  else if c = 'e' then 'E'
  else if c = 'f' then 'F'
  else c

/-- `hexU` (R83). -/
def hexU (x : Word) : Text := (hexL x).map upperHexChar

/-! ### Register names (R84, R86, R89) -/

/-- ABI_NAME (R86), registers 0 to 31. PRESUMED by the spec (log entry 7): only `t1`, `s1` and `t9` are the source's. -/
def abiNames : List String :=
  ["zero", "at", "v0", "v1", "a0", "a1", "a2", "a3"] ++
  ["t0", "t1", "t2", "t3", "t4", "t5", "t6", "t7"] ++
  ["s0", "s1", "s2", "s3", "s4", "s5", "s6", "s7"] ++
  ["t8", "t9", "k0", "k1", "gp", "sp", "fp", "ra"]

/-- `ABI_NAME[n]` (R86). -/
def abiName (n : RegIndex) : Text := (abiNames.getD n.toNat "").toList

/-- `reg` (R84). Index 0 is rendered like any other (R21). -/
def reg (naming : Naming) (n : RegIndex) : Text :=
  '$' :: match naming with
    | .numeric => dec n.toNat
    | .abi => abiName n

/-- Re-parsing a register name (R89): the index it is the rendering of, if it is one. -/
def parseReg (naming : Naming) (t : Text) : Option RegIndex :=
  ((List.range 32).map (BitVec.ofNat 5)).find? fun n => reg naming n == t

/-! ### Branch-target address adder (R69, R99) -/

/-- `off32 = sext_32(imm16) << 2` (R69). -/
def off32 (imm16 : Imm) : Word := sext32 imm16 <<< 2

/-- `target = (CUR_ADDR +32 4) +32 off32` (R99), modulo 2^32. -/
def branchTarget (curAddr : Word) (imm16 : Imm) : Word := (curAddr + 4#32) + off32 imm16

/-! ### Operand-slot multiplexer (R94) -/

/-- The operand class an operand record belongs to. -/
def operandsClass : Operands → OperandClass
  | .arith _ => .arith
  | .mem _ => .mem
  | .branch _ _ => .branch

/-- Slots 1, 2 and 3 of the rendered text (R94). -/
def operandSlots : Operands → Slot × Slot × Slot
  | .arith d => (.reg d.rd, .reg d.rs, .reg d.rt)
  | .mem d => (.reg d.rt, .disp (signed16 d.imm16), .base d.rs)
  | .branch d target => (.reg d.rs, .reg d.rt, .target target)

/-! ### Renderer (R75 to R78, R100) -/

/-- The mnemonic's spelling: lowercase ASCII letters (R78). -/
def mnemText : Mnem → Text
  | .add => "add".toList
  | .sub => "sub".toList
  | .and => "and".toList
  | .or => "or".toList
  | .slt => "slt".toList
  | .lw => "lw".toList
  | .sw => "sw".toList
  | .beq => "beq".toList
  | .bne => "bne".toList

/-- The text of one slot: a register, a signed decimal, a register in parentheses, or the word `address` and the target in uppercase
hexadecimal (R75 to R77). -/
def slotText (naming : Naming) : Slot → Text
  | .reg n => reg naming n
  | .disp v => sdec v
  | .base n => '(' :: (reg naming n ++ [')'])
  | .target t => "address ".toList ++ hexU t

/-- What stands between slots 2 and 3: nothing before a base register in parentheses (R76), a comma and a space otherwise (R75, R77). -/
def secondSeparator : OperandClass → Text
  | .arith => ", ".toList
  | .mem => []
  | .branch => ", ".toList

/-- The renderer (R100), total: mnemonic, space, then the three slots as the class lays them out. -/
def render (naming : Naming) (m : Mnem) (ops : Operands) : Text :=
  mnemText m ++ ' ' :: (slotText naming (operandSlots ops).1 ++ ", ".toList ++ slotText naming (operandSlots ops).2.1 ++
    secondSeparator (operandsClass ops) ++ slotText naming (operandSlots ops).2.2)

/-! ### The `Ok` record (R101, R103) -/

/-- The `fmt` of an operand record: R for ARITH, I for MEM and BRANCH (R98). -/
def operandsFmt : Operands → Fmt
  | .arith _ => .rFormat
  | .mem _ => .iFormat
  | .branch _ _ => .iFormat

/-- The `fields` of an operand record (R103). -/
def operandsFields : Operands → Fields
  | .arith d => .r d
  | .mem d => .i d
  | .branch d _ => .i d

/-- The `target` of an operand record: present exactly for the BRANCH class (R103). -/
def operandsTarget : Operands → Option Word
  | .arith _ => none
  | .mem _ => none
  | .branch _ t => some t

/-- The `Ok` result of a mnemonic with its operands, for the word `w` at address `a` (R101, R103). -/
def okResult (naming : Naming) (m : Mnem) (ops : Operands) (a w : Word) : Result :=
  .ok { addr := a, word := w, fmt := operandsFmt ops, mnem := m, fields := operandsFields ops, target := operandsTarget ops,
        text := render naming m ops }

end Sys2Proof.Machine
end

