-- ==== Sys2Proof/Machine/Flags.lean ====
section
/-! DEFINITION. The HALTED flag (10_state.md R30), the per-step flags `ok`, `err_kind` and `has_target` (R31, R34; 60_exceptions.md
R141), and the projection of a result onto the output ports (R34; 40_decode_datapath.md R103, R104). -/

namespace Sys2Proof.Machine

/-- Whether a result is an `Err`. -/
def Result.isErr : Result → Bool
  | .ok _ => false
  | .err _ => true

/-- CUR_ADDR of the step that emitted the result (R103, R142). -/
def Result.addr : Result → Word
  | .ok r => r.addr
  | .err e => e.addr

/-- The word that the result is of (R103, R142). -/
def Result.word : Result → Word
  | .ok r => r.word
  | .err e => e.word

/-- `addr_text = hexL(CUR_ADDR)` (R87). -/
def Result.addrText (r : Result) : Text := hexL r.addr

/-- HALTED after a step that emits `r`: set when CFG.STRICT = 1 and the word raised `UnsupportedEncoding`, else unchanged (R30, R102). -/
def haltedAfter (s : State) (r : Result) : Bool := s.halted || (r.isErr && s.cfg.strict)

/-- The `err_kind` code (R141): OPCODE = 0, FUNCT = 1. -/
def errKindBit : ErrKind → BitVec 1
  | .opcode => 0#1
  | .funct => 1#1

/-- The `fmt` code (R34): R-format = 0, I-format = 1. -/
def fmtBit : Fmt → BitVec 1
  | .rFormat => 0#1
  | .iFormat => 1#1

/-- `has_target` (R34, R98): 1 for beq and bne. -/
def hasTarget (m : Mnem) : Bool := decide (classOf m = .branch)

/-- Bits 31–26 of a decoded word, as its fields give them: 0 in the R format (R62). -/
def fieldsOpcode : Fields → Code
  | .r _ => 0#6
  | .i d => d.opcode

/-- The `rs` of either format. -/
def fieldsRs : Fields → RegIndex
  | .r d => d.rs
  | .i d => d.rs

/-- The `rt` of either format. -/
def fieldsRt : Fields → RegIndex
  | .r d => d.rt
  | .i d => d.rt

/-- `rd`, valid only in the R format (R34). -/
def fieldsRd : Fields → Option RegIndex
  | .r d => some d.rd
  | .i _ => none

/-- `funct`, valid only in the R format (R34). -/
def fieldsFunct : Fields → Option Code
  | .r d => some d.funct
  | .i _ => none

/-- `imm`, valid only in the I format (R34). -/
def fieldsImm : Fields → Option Imm
  | .r _ => none
  | .i d => some d.imm16

/-- The output ports while no result is presented: `out_valid` = 0, and no other output carries a value (R161). -/
def silentPorts : OutPorts :=
  { outValid := false, ok := none, errKind := none, errCode := none, curAddr := none, wordOut := none, fmt := none, mnem := none,
    opcode := none, rs := none, rt := none, rd := none, funct := none, imm := none, hasTarget := none, target := none,
    text := none, addrText := none, halted := none }

/-- The output ports of an `Ok` result (R34, R103). -/
def okPorts (r : OkRecord) (halted : Bool) : OutPorts :=
  { outValid := true, ok := some true, errKind := none, errCode := none, curAddr := some r.addr, wordOut := some r.word,
    fmt := some (fmtBit r.fmt), mnem := some (mnemId r.mnem), opcode := some (fieldsOpcode r.fields),
    rs := some (fieldsRs r.fields), rt := some (fieldsRt r.fields), rd := fieldsRd r.fields, funct := fieldsFunct r.fields,
    imm := fieldsImm r.fields, hasTarget := some (hasTarget r.mnem),
    target := if hasTarget r.mnem then r.target else none, text := some r.text,
    addrText := some (Result.ok r).addrText, halted := some halted }

/-- The output ports of an `Err` result (R34, R104): `ok` = 0, the cause and the code; nothing decoded. -/
def errPorts (e : ErrRecord) (halted : Bool) : OutPorts :=
  { silentPorts with
    outValid := true, ok := some false, errKind := some (errKindBit e.kind), errCode := some e.code, curAddr := some e.addr,
    wordOut := some e.word, addrText := some (Result.err e).addrText, halted := some halted }

/-- The output ports after the latest step (R34): a projection of the result it presents and of HALTED. -/
def State.outPorts (s : State) : OutPorts :=
  match s.out with
  | none => silentPorts
  | some (.ok r) => okPorts r s.halted
  | some (.err e) => errPorts e s.halted

/-- One printed line (R88). The layout is the spec's OPEN parameter LINE_LAYOUT, so it is an argument; an `Err` has no text to print. -/
def printedLine (lineLayout : Text → Text → Text) : Result → Option Text
  | .ok r => some (lineLayout (Result.ok r).addrText r.text)
  | .err _ => none

end Sys2Proof.Machine
end

