-- ==== Sys2Proof/Machine/Ops.lean ====
section
/-! DEFINITION. The operations every step is made of: the sequencer (10_state.md R23, R25, R27, R28), consuming a word and emitting its
result (40_decode_datapath.md R102), raising `UnsupportedEncoding` (60_exceptions.md R140 to R147), reset (70_reset_and_hazards.md
R160), and the reading of the input ports (R34). The block has no memory (20_memory.md R40) and no register file (R20), so no operation
over either stands here; it has no return from an exception (R148). -/

namespace Sys2Proof.Machine

/-! ### Sequencer -/

/-- SEQ_ADDR after the step that consumes a word: it advances by 4, modulo 2^32, when CFG.SEQ_EN = 1 (R25, R28), and is unchanged when
CFG.SEQ_EN = 0 (R27). -/
def State.nextSeqAddr (s : State) : Word :=
  if s.cfg.seqEn then s.seqAddr + 4#32 else s.seqAddr

/-- CUR_ADDR of the step that consumes the word on `p` (R23): the sequencer's new value, or `addr_in`. -/
def State.curAddr (s : State) (p : InPorts) : Word :=
  if s.cfg.seqEn then s.nextSeqAddr else p.addrIn

/-! ### Consuming a word -/

/-- The step that consumes the presented word and emits `r`, leaving `rest` to present (R102): the sequencer advances, HALTED is set by
an `Err` in strict mode, and the result goes to the output ports and to the run's observation (R106). Nothing else changes. -/
def State.consume (s : State) (rest : List InPorts) (r : Result) : State :=
  { s with
    seqAddr := s.nextSeqAddr
    halted := haltedAfter s r
    inputs := rest
    out := some r
    results := s.results ++ [r] }

/-- Consume the word on the input ports with the result that `mk` gives for CUR_ADDR and the word. With nothing presented there is no
word to consume. -/
def emitResult (mk : Word → Word → Result) (s : State) : Host.Outcome State Fault Refusal :=
  match s.inputs with
  | [] => .fault .inputExhausted
  | p :: rest => .next (s.consume rest (mk (s.curAddr p) p.wordIn))

/-- Emit the `Ok` result of a mnemonic whose operands `opsAt` gives for CUR_ADDR (R101, R103). -/
def emitOk (m : Mnem) (opsAt : Word → Operands) (s : State) : Host.Outcome State Fault Refusal :=
  emitResult (fun a w => okResult s.cfg.naming m (opsAt a) a w) s

/-! ### The block's one exception -/

/-- Raising `UnsupportedEncoding` (R101, R140, R142, R145): the word's result is the `Err` record of CUR_ADDR, the word, the cause and the
offending code. Nothing is saved, no mode changes, no vector is taken: SEQ_ADDR advances as for any word (R165), and HALTED is set in
strict mode (R147). A step that takes the exception answers a next state. -/
def takeUnsupported (kind : ErrKind) (code : Code) (s : State) : Host.Outcome State Fault Refusal :=
  emitResult (fun a w => .err { addr := a, word := w, kind := kind, code := code }) s

/-! ### Reset -/

/-- CFG.REG_NAMING of a `cfg_reg_naming` bit: 0 = NUMERIC, 1 = ABI (R32). -/
def namingOfBit (b : Bool) : Naming := if b then .abi else .numeric

/-- The configuration on the input ports (R32, R34, R160 `cfg_in`). -/
def InPorts.cfgIn (p : InPorts) : Config :=
  { base := p.cfgBase, seqEn := p.cfgSeqEn, naming := namingOfBit p.cfgRegNaming, strict := p.cfgStrict }

/-- Reset (R160, R161): CFG captured, SEQ_ADDR = CFG.BASE, HALTED = 0, no result presented, a new run's observation begun. The ROMs are not
touched. -/
def captureReset (p : InPorts) (rest : List InPorts) (s : State) : State :=
  { s with
    cfg := p.cfgIn
    seqAddr := p.cfgIn.base
    halted := false
    inputs := rest
    out := none
    results := [] }

/-- `in_valid` = 0 (R102, R157): the block holds its state and emits nothing. -/
def holdState (rest : List InPorts) (s : State) : State :=
  { s with inputs := rest, out := none }

/-! ### The input ports of a step -/

/-- What the input ports ask of the block. -/
inductive Fetched where
  /-- no step: the run is over (R106) -/
  | runOver (why : Fault)
  /-- `rst` = 1 -/
  | reset (p : InPorts) (rest : List InPorts)
  /-- `in_valid` = 0 -/
  | idle (rest : List InPorts)
  /-- a word to consume -/
  | word (w : Word)
deriving DecidableEq, Repr

/-- Read the input ports. DEDUCED (log entries 3, 4, 5): `rst` acts before anything else, being the only input that acts outside the step
order (R150) and the only thing that clears HALTED (R30); with `in_valid` = 0 no step is asked for, halted or not; a word presented to a
halted block finds no step (R107). -/
def fetch (s : State) : Fetched :=
  match s.inputs with
  | [] => .runOver .inputExhausted
  | p :: rest =>
    if p.rst then .reset p rest
    else if !p.inValid then .idle rest
    else if s.halted then .runOver .halted
    else .word p.wordIn

/-- A step's input ports that present the word `w` and nothing else: every other port is 0. -/
def InPorts.ofWord (w : Word) : InPorts :=
  { rst := false, cfgBase := 0#32, cfgSeqEn := false, cfgRegNaming := false, cfgStrict := false, inValid := true, wordIn := w,
    addrIn := 0#32 }

/-- The same input ports with the word `w` presented on them. -/
def InPorts.present (p : InPorts) (w : Word) : InPorts :=
  { p with rst := false, inValid := true, wordIn := w }

/-- The input sequence with the word `w` presented first: on the next step's ports where there are some, else on ports of its own. -/
def presentFirst (w : Word) : List InPorts → List InPorts
  | [] => [InPorts.ofWord w]
  | p :: rest => p.present w :: rest

end Sys2Proof.Machine
end

