-- ==== Sys2Proof/Machine/Arith.lean ====
section
/-! DEFINITION. The R-format family: add, sub, and, or, slt (41_r_format.md R110 to R114). Each renders `rd, rs, rt`, reads no register
value and computes nothing (R115); bits 10–6 are not read (R63). -/

namespace Sys2Proof.Machine

/-- The ARITH pattern that R110 to R114 share: the fields of the word with the mnemonic's function code. -/
def emitArith (m : Mnem) (rs rt rd : RegIndex) (s : State) : Host.Outcome State Fault Refusal :=
  emitOk m (fun _ => .arith { rs := rs, rt := rt, rd := rd, funct := selectorOf m }) s

/-- `add` (R110). -/
def execAdd (rs rt rd : RegIndex) (_ignored : BitVec 5) (s : State) : Host.Outcome State Fault Refusal :=
  emitArith .add rs rt rd s

/-- `sub` (R111). -/
def execSub (rs rt rd : RegIndex) (_ignored : BitVec 5) (s : State) : Host.Outcome State Fault Refusal :=
  emitArith .sub rs rt rd s

/-- `and` (R112). -/
def execAnd (rs rt rd : RegIndex) (_ignored : BitVec 5) (s : State) : Host.Outcome State Fault Refusal :=
  emitArith .and rs rt rd s

/-- `or` (R113). -/
def execOr (rs rt rd : RegIndex) (_ignored : BitVec 5) (s : State) : Host.Outcome State Fault Refusal :=
  emitArith .or rs rt rd s

/-- `slt` (R114). -/
def execSlt (rs rt rd : RegIndex) (_ignored : BitVec 5) (s : State) : Host.Outcome State Fault Refusal :=
  emitArith .slt rs rt rd s

end Sys2Proof.Machine
end

