-- ==== Sys2Proof/Machine/Branch.lean ====
section
/-! DEFINITION. The I-format branch family: beq, bne (43_branch.md R130, R131). Each renders `rs, rt, address target` with the target of
the branch-target adder (R99); no branch is taken and nothing is compared (R133). -/

namespace Sys2Proof.Machine

/-- The BRANCH pattern that R130 and R131 share. -/
def emitBranch (m : Mnem) (rs rt : RegIndex) (simm : Int) (s : State) : Host.Outcome State Fault Refusal :=
  emitOk m
    (fun a => .branch { opcode := selectorOf m, rs := rs, rt := rt, imm16 := imm16Of simm } (branchTarget a (imm16Of simm))) s

/-- `beq` (R130). -/
def execBeq (rs rt : RegIndex) (simm : Int) (s : State) : Host.Outcome State Fault Refusal :=
  emitBranch .beq rs rt simm s

/-- `bne` (R131). -/
def execBne (rs rt : RegIndex) (simm : Int) (s : State) : Host.Outcome State Fault Refusal :=
  emitBranch .bne rs rt simm s

end Sys2Proof.Machine
end

