-- ==== Sys2Proof/Machine/LoadStore.lean ====
section
/-! DEFINITION. The I-format load/store family: lw, sw (42_load_store.md R120, R121). Each renders `rt, simm(rs)`; no effective address
is computed and no memory is accessed (R122, 20_memory.md R40). -/

namespace Sys2Proof.Machine

/-- The MEM pattern that R120 and R121 share. -/
def emitMem (m : Mnem) (rs rt : RegIndex) (simm : Int) (s : State) : Host.Outcome State Fault Refusal :=
  emitOk m (fun _ => .mem { opcode := selectorOf m, rs := rs, rt := rt, imm16 := imm16Of simm }) s

/-- `lw` (R120). -/
def execLw (rs rt : RegIndex) (simm : Int) (s : State) : Host.Outcome State Fault Refusal :=
  emitMem .lw rs rt simm s

/-- `sw` (R121). -/
def execSw (rs rt : RegIndex) (simm : Int) (s : State) : Host.Outcome State Fault Refusal :=
  emitMem .sw rs rt simm s

end Sys2Proof.Machine
end

