-- ==== Sys2Proof/Machine/Dispatch.lean ====
section
/-! DEFINITION. One arm per instruction, each one call of its meaning. -/

namespace Sys2Proof.Machine

def exec (i : Instr) (s : State) : Host.Outcome State Fault Refusal :=
  match i with
  | .add rs rt rd ignored => Sys2Proof.Machine.execAdd rs rt rd ignored s
  | .sub rs rt rd ignored => Sys2Proof.Machine.execSub rs rt rd ignored s
  | .and rs rt rd ignored => Sys2Proof.Machine.execAnd rs rt rd ignored s
  | .or rs rt rd ignored => Sys2Proof.Machine.execOr rs rt rd ignored s
  | .slt rs rt rd ignored => Sys2Proof.Machine.execSlt rs rt rd ignored s
  | .lw rs rt simm => Sys2Proof.Machine.execLw rs rt simm s
  | .sw rs rt simm => Sys2Proof.Machine.execSw rs rt simm s
  | .beq rs rt simm => Sys2Proof.Machine.execBeq rs rt simm s
  | .bne rs rt simm => Sys2Proof.Machine.execBne rs rt simm s

end Sys2Proof.Machine
end

