-- ==== Sys2Proof/Machine/Step.lean ====
section
/-! DEFINITION. One step of the block (40_decode_datapath.md R102): read the input ports, then reset, hold, decode and run the presented
word, or find the run over. -/

namespace Sys2Proof.Machine

/-- One step. -/
def step (s : State) : Host.Outcome State Fault Refusal :=
  match fetch s with
  | .runOver why => .fault why
  | .reset p rest => .next (captureReset p rest s)
  | .idle rest => .next (holdState rest s)
  | .word w =>
    match decodeWord s.roms w with
    | .instr i => exec i s
    | .unsupported kind code => takeUnsupported kind code s

/-- The state with the given instruction word presented to the next step. The block loads no program: words are presented from outside
(R161), and this stands for the caller presenting one (log entry 6). HALTED is left alone: only reset clears it (R30). -/
def State.withFetchWord (s : State) (nbits w : Nat) : State :=
  { s with inputs := presentFirst (tableWord nbits w) s.inputs }

end Sys2Proof.Machine
end

