-- ==== Sys2Proof/Machine/Datapath.lean ====
section
/-! DEFINITION. The decode datapath and the step as 40_decode_datapath.md R101 and R102 write them, over the signature of R108. This is the
reference the machine's step is compared with: it goes from the word to the result through the units, with no instruction type between. -/

namespace Sys2Proof.Machine

/-- `decode(w, a, naming)` (R101). -/
def datapathDecode (roms : Roms) (w a : Word) (naming : Naming) : Result :=
  if opcodeOf w = 0#6 then
    let d := decodeR w
    match resolve roms.r d.funct with
    | none => .err { addr := a, word := w, kind := .funct, code := d.funct }
    | some m => okResult naming m (.arith d) a w
  else
    let d := decodeI w
    match resolve roms.i d.opcode with
    | none => .err { addr := a, word := w, kind := .opcode, code := d.opcode }
    | some m =>
      if classOf m = .mem then okResult naming m (.mem d) a w
      else okResult naming m (.branch d ((a + 4#32) + (sext32 d.imm16 <<< 2))) a w

/-- `step(cfg, s, word_in, addr_in)` (R102): no step once HALTED = 1; else the new SEQ_ADDR, the new HALTED and the result. -/
def datapathStep (roms : Roms) (cfg : Config) (seqAddr : Word) (halted : Bool) (wordIn addrIn : Word) :
    Option (Word × Bool × Result) :=
  if halted then none
  else
    let seqAddr' := if cfg.seqEn then seqAddr + 4#32 else seqAddr
    let a := if cfg.seqEn then seqAddr' else addrIn
    let r := datapathDecode roms wordIn a cfg.naming
    some (seqAddr', r.isErr && cfg.strict, r)

end Sys2Proof.Machine
end

