-- ==== Sys2Proof/Safety.lean ====
section
/-! DEFINITION. The terms the statements use: a word presented to the block, the invariant of a run, and what rendered text may hold and
denote. -/

namespace Sys2Proof.Machine

/-! ### Presenting a word -/

/-- The block is asked to consume the word on `p`, with `rest` to follow: no reset, a valid word, not halted (R102). -/
structure Presents (s : State) (p : InPorts) (rest : List InPorts) : Prop where
  inputs : s.inputs = p :: rest
  noReset : p.rst = false
  valid : p.inValid = true
  running : s.halted = false

/-- Every entry of an input sequence presents a word and no reset. -/
def AllWords (ps : List InPorts) : Prop := ∀ p ∈ ps, p.rst = false ∧ p.inValid = true

/-- The state after a word of any kind with result `r`, written out: what R102 and R106 change and nothing else. -/
def afterWord (s : State) (rest : List InPorts) (r : Result) (halted : Bool) : State :=
  { seqAddr := if s.cfg.seqEn then s.seqAddr + 4#32 else s.seqAddr
    halted := halted
    cfg := s.cfg
    roms := s.roms
    inputs := rest
    out := some r
    results := s.results ++ [r] }

/-- CUR_ADDR of the word on `p` (R23), written out. -/
def addressOf (s : State) (p : InPorts) : Word :=
  if s.cfg.seqEn then s.seqAddr + 4#32 else p.addrIn

/-- The text of a result, if it has one (R103, R104). -/
def Result.text? : Result → Option Text
  | .ok r => some r.text
  | .err _ => none

/-- The same result with another word in its record. -/
def Result.setWord (w : Word) : Result → Result
  | .ok r => .ok { r with word := w }
  | .err e => .err { e with word := w }

/-- Wherever the word `w` is presented, the step emits an `Ok` with this text, under NUMERIC and under ABI naming. -/
def RendersAs (w : Word) (numeric abi : String) : Prop :=
  ∀ (s : State) (p : InPorts) (rest : List InPorts), Presents s p rest → p.wordIn = w →
    ∃ t r, step s = .next t ∧ t.out = some r ∧
      r.text? = some (match s.cfg.naming with | .numeric => numeric.toList | .abi => abi.toList)

/-- Where the word `w` is presented with CUR_ADDR = `a`, the step emits an `Ok` with this target and this text, under NUMERIC and under
ABI naming. -/
def BranchRendersAs (a w target : Word) (numeric abi : String) : Prop :=
  ∀ (s : State) (p : InPorts) (rest : List InPorts), Presents s p rest → p.wordIn = w → addressOf s p = a →
    ∃ t r, step s = .next t ∧ t.out = some (.ok r) ∧ r.target = some target ∧
      r.text = (match s.cfg.naming with | .numeric => numeric.toList | .abi => abi.toList)

/-- Wherever the word `w` is presented, the step emits the `Err` with this cause and code (R142), and the state is the one that rule R145
leaves. -/
def RaisesUnsupported (w : Word) (kind : ErrKind) (code : Code) : Prop :=
  ∀ (s : State) (p : InPorts) (rest : List InPorts), Presents s p rest → p.wordIn = w →
    step s = .next (afterWord s rest (.err { addr := addressOf s p, word := w, kind := kind, code := code }) s.cfg.strict)

/-- The opcodes of the unsupported space (R72): 0x01–0x03, 0x06–0x22, 0x24–0x2A, 0x2C–0x3F. -/
def unsupportedOpcode (n : Nat) : Bool :=
  (1 ≤ n && n ≤ 3) || (6 ≤ n && n ≤ 0x22) || (0x24 ≤ n && n ≤ 0x2A) || (0x2C ≤ n && n ≤ 0x3F)

/-- The function codes of the unsupported space (R72): 0x00–0x1F, 0x21, 0x23, 0x26–0x29, 0x2B–0x3F. -/
def unsupportedFunct (n : Nat) : Bool :=
  n ≤ 0x1F || n == 0x21 || n == 0x23 || (0x26 ≤ n && n ≤ 0x29) || (0x2B ≤ n && n ≤ 0x3F)

/-! ### The invariant of a run -/

/-- What holds between the steps of a run that began with a reset (R26, R27, R30, R31, R101, R106, R147). -/
structure RunInv (s : State) : Prop where
  /-- sequencer on: SEQ_ADDR is BASE plus 4 for each result (R26, R36) -/
  counter : s.cfg.seqEn = true → s.seqAddr = s.cfg.base + BitVec.ofNat 32 (4 * s.results.length)
  /-- sequencer off: SEQ_ADDR still holds BASE (R27, R36) -/
  counterOff : s.cfg.seqEn = false → s.seqAddr = s.cfg.base
  /-- sequencer on: the k-th result is at BASE + 4k (R26) -/
  addresses : s.cfg.seqEn = true → ∀ k r, s.results[k]? = some r → r.addr = s.cfg.base + BitVec.ofNat 32 (4 * (k + 1))
  /-- every result is the one the datapath gives for its word and address under the run's one naming (R101, R32) -/
  decoded : ∀ r ∈ s.results, r = datapathDecode s.roms r.word r.addr s.cfg.naming
  /-- HALTED only in strict mode, and then the last result is the `Err` that halted the block (R30, R147) -/
  haltedByErr : s.halted = true → s.cfg.strict = true ∧ ∃ e, s.results.getLast? = some (.err e)
  /-- strict mode: no `Err` but the last result's (R147) -/
  strictOk : s.cfg.strict = true → ∀ r ∈ s.results.dropLast, r.isErr = false
  /-- strict mode: no `Err` at all while the block runs (R147) -/
  strictRunning : s.cfg.strict = true → s.halted = false → ∀ r ∈ s.results, r.isErr = false
  /-- the output ports present the run's last result or none (R31) -/
  presented : s.out = none ∨ s.out = s.results.getLast?

/-! ### Rendered text -/

/-- The characters a rendered string may hold (R85). -/
def repertoire : List Char :=
  ['a', 'b', 'c', 'd', 'e', 'f', 'g', 'h', 'i', 'j', 'k', 'l', 'm'] ++
  ['n', 'o', 'p', 'q', 'r', 's', 't', 'u', 'v', 'w', 'x', 'y', 'z'] ++
  ['0', '1', '2', '3', '4', '5', '6', '7', '8', '9'] ++ ['A', 'B', 'C', 'D', 'E', 'F'] ++
  ['$', ',', ' ', '(', ')', '-']

/-- The value of a digit character, upper or lower case. -/
def digitValue (c : Char) : Nat :=
  if '0' ≤ c ∧ c ≤ '9' then c.toNat - 48
  else if 'a' ≤ c ∧ c ≤ 'f' then c.toNat - 87
  else c.toNat - 55

/-- The number a numeral denotes in a base. -/
def numeralValue (base : Nat) (t : Text) : Nat :=
  t.foldl (fun acc c => acc * base + digitValue c) 0

/-- The digit characters of decimal, lowercase and uppercase hexadecimal numerals (R80, R82, R83). -/
def decimalChars : List Char := ['0', '1', '2', '3', '4', '5', '6', '7', '8', '9']
def lowerHexChars : List Char := decimalChars ++ ['a', 'b', 'c', 'd', 'e', 'f']
def upperHexChars : List Char := decimalChars ++ ['A', 'B', 'C', 'D', 'E', 'F']

/-- A nonempty text is the shortest numeral of `n` in `base` over the digit characters `chars`: it denotes `n`, and no other nonempty text
over those characters that denotes `n` is shorter (R80, R82). -/
def IsShortestNumeral (base : Nat) (chars : List Char) (n : Nat) (t : Text) : Prop :=
  t ≠ [] ∧ (∀ c ∈ t, c ∈ chars) ∧ numeralValue base t = n ∧
    ∀ t' : Text, t' ≠ [] → (∀ c ∈ t', c ∈ chars) → numeralValue base t' = n → t.length ≤ t'.length

end Sys2Proof.Machine
end

