-- ==== Sys2Proof/Certificates/Slice0/Obligations.lean ====
section
/-! DEFINITION. The statements for the provers, each a proposition about the model, listed in OBLIGATIONS.json. -/

open Sys2Proof Sys2Proof.Machine

/-- add: the result record, the text and the whole next state (R110). (R110; the ABI names but t1, s1 and t9 are the spec's general knowledge, R86, log entry 7) -/
def Obligations.AddDecodesAndRenders : Prop :=
  (∀ (rs rt rd : RegIndex) (ignored : BitVec 5) (s : State) (p : InPorts) (rest : List InPorts), s.inputs = p :: rest →
    exec (.add rs rt rd ignored) s =
      .next (afterWord s rest
        (.ok { addr := addressOf s p, word := p.wordIn, fmt := .rFormat, mnem := .add,
               fields := .r { rs := rs, rt := rt, rd := rd, funct := 0x20#6 }, target := none,
               text := "add ".toList ++ reg s.cfg.naming rd ++ ", ".toList ++ reg s.cfg.naming rs ++ ", ".toList ++
                 reg s.cfg.naming rt })
        s.halted)) ∧
  (∀ (s : State) (p : InPorts) (rest : List InPorts), Presents s p rest → p.wordIn &&& 0xFC00003F#32 = 0x00000020#32 →
    step s =
      .next (afterWord s rest
        (.ok { addr := addressOf s p, word := p.wordIn, fmt := .rFormat, mnem := .add,
               fields := .r { rs := p.wordIn.extractLsb' 21 5, rt := p.wordIn.extractLsb' 16 5,
                              rd := p.wordIn.extractLsb' 11 5, funct := 0x20#6 },
               target := none,
               text := "add ".toList ++ reg s.cfg.naming (p.wordIn.extractLsb' 11 5) ++ ", ".toList ++
                 reg s.cfg.naming (p.wordIn.extractLsb' 21 5) ++ ", ".toList ++ reg s.cfg.naming (p.wordIn.extractLsb' 16 5) })
        s.halted)) ∧
  RendersAs 0x01398820#32 "add $17, $9, $25" "add $s1, $t1, $t9" ∧
  RendersAs 0x00A52820#32 "add $5, $5, $5" "add $a1, $a1, $a1" ∧
  RendersAs 0x00000020#32 "add $0, $0, $0" "add $zero, $zero, $zero" ∧
  RendersAs 0x00221FE0#32 "add $3, $1, $2" "add $v1, $at, $v0"

/-- sub: the result record, the text and the whole next state (R111). (R111; the ABI names but t1, s1 and t9 are the spec's general knowledge, R86, log entry 7) -/
def Obligations.SubDecodesAndRenders : Prop :=
  (∀ (rs rt rd : RegIndex) (ignored : BitVec 5) (s : State) (p : InPorts) (rest : List InPorts), s.inputs = p :: rest →
    exec (.sub rs rt rd ignored) s =
      .next (afterWord s rest
        (.ok { addr := addressOf s p, word := p.wordIn, fmt := .rFormat, mnem := .sub,
               fields := .r { rs := rs, rt := rt, rd := rd, funct := 0x22#6 }, target := none,
               text := "sub ".toList ++ reg s.cfg.naming rd ++ ", ".toList ++ reg s.cfg.naming rs ++ ", ".toList ++
                 reg s.cfg.naming rt })
        s.halted)) ∧
  (∀ (s : State) (p : InPorts) (rest : List InPorts), Presents s p rest → p.wordIn &&& 0xFC00003F#32 = 0x00000022#32 →
    step s =
      .next (afterWord s rest
        (.ok { addr := addressOf s p, word := p.wordIn, fmt := .rFormat, mnem := .sub,
               fields := .r { rs := p.wordIn.extractLsb' 21 5, rt := p.wordIn.extractLsb' 16 5,
                              rd := p.wordIn.extractLsb' 11 5, funct := 0x22#6 },
               target := none,
               text := "sub ".toList ++ reg s.cfg.naming (p.wordIn.extractLsb' 11 5) ++ ", ".toList ++
                 reg s.cfg.naming (p.wordIn.extractLsb' 21 5) ++ ", ".toList ++ reg s.cfg.naming (p.wordIn.extractLsb' 16 5) })
        s.halted)) ∧
  RendersAs 0x01398822#32 "sub $17, $9, $25" "sub $s1, $t1, $t9" ∧
  RendersAs 0x00A52822#32 "sub $5, $5, $5" "sub $a1, $a1, $a1" ∧
  RendersAs 0x03FFF822#32 "sub $31, $31, $31" "sub $ra, $ra, $ra" ∧
  RendersAs 0x00221FE2#32 "sub $3, $1, $2" "sub $v1, $at, $v0"

/-- and: the result record, the text and the whole next state (R112). (R112; the ABI names but t1, s1 and t9 are the spec's general knowledge, R86, log entry 7) -/
def Obligations.AndDecodesAndRenders : Prop :=
  (∀ (rs rt rd : RegIndex) (ignored : BitVec 5) (s : State) (p : InPorts) (rest : List InPorts), s.inputs = p :: rest →
    exec (.and rs rt rd ignored) s =
      .next (afterWord s rest
        (.ok { addr := addressOf s p, word := p.wordIn, fmt := .rFormat, mnem := .and,
               fields := .r { rs := rs, rt := rt, rd := rd, funct := 0x24#6 }, target := none,
               text := "and ".toList ++ reg s.cfg.naming rd ++ ", ".toList ++ reg s.cfg.naming rs ++ ", ".toList ++
                 reg s.cfg.naming rt })
        s.halted)) ∧
  (∀ (s : State) (p : InPorts) (rest : List InPorts), Presents s p rest → p.wordIn &&& 0xFC00003F#32 = 0x00000024#32 →
    step s =
      .next (afterWord s rest
        (.ok { addr := addressOf s p, word := p.wordIn, fmt := .rFormat, mnem := .and,
               fields := .r { rs := p.wordIn.extractLsb' 21 5, rt := p.wordIn.extractLsb' 16 5,
                              rd := p.wordIn.extractLsb' 11 5, funct := 0x24#6 },
               target := none,
               text := "and ".toList ++ reg s.cfg.naming (p.wordIn.extractLsb' 11 5) ++ ", ".toList ++
                 reg s.cfg.naming (p.wordIn.extractLsb' 21 5) ++ ", ".toList ++ reg s.cfg.naming (p.wordIn.extractLsb' 16 5) })
        s.halted)) ∧
  RendersAs 0x00491824#32 "and $3, $2, $9" "and $v1, $v0, $t1" ∧
  RendersAs 0x00000024#32 "and $0, $0, $0" "and $zero, $zero, $zero" ∧
  RendersAs 0x00221FE4#32 "and $3, $1, $2" "and $v1, $at, $v0"

/-- or: the result record, the text and the whole next state (R113). (R113; the ABI names but t1, s1 and t9 are the spec's general knowledge, R86, log entry 7) -/
def Obligations.OrDecodesAndRenders : Prop :=
  (∀ (rs rt rd : RegIndex) (ignored : BitVec 5) (s : State) (p : InPorts) (rest : List InPorts), s.inputs = p :: rest →
    exec (.or rs rt rd ignored) s =
      .next (afterWord s rest
        (.ok { addr := addressOf s p, word := p.wordIn, fmt := .rFormat, mnem := .or,
               fields := .r { rs := rs, rt := rt, rd := rd, funct := 0x25#6 }, target := none,
               text := "or ".toList ++ reg s.cfg.naming rd ++ ", ".toList ++ reg s.cfg.naming rs ++ ", ".toList ++
                 reg s.cfg.naming rt })
        s.halted)) ∧
  (∀ (s : State) (p : InPorts) (rest : List InPorts), Presents s p rest → p.wordIn &&& 0xFC00003F#32 = 0x00000025#32 →
    step s =
      .next (afterWord s rest
        (.ok { addr := addressOf s p, word := p.wordIn, fmt := .rFormat, mnem := .or,
               fields := .r { rs := p.wordIn.extractLsb' 21 5, rt := p.wordIn.extractLsb' 16 5,
                              rd := p.wordIn.extractLsb' 11 5, funct := 0x25#6 },
               target := none,
               text := "or ".toList ++ reg s.cfg.naming (p.wordIn.extractLsb' 11 5) ++ ", ".toList ++
                 reg s.cfg.naming (p.wordIn.extractLsb' 21 5) ++ ", ".toList ++ reg s.cfg.naming (p.wordIn.extractLsb' 16 5) })
        s.halted)) ∧
  RendersAs 0x01398825#32 "or $17, $9, $25" "or $s1, $t1, $t9" ∧
  RendersAs 0x00802025#32 "or $4, $4, $0" "or $a0, $a0, $zero"

/-- slt: the result record, the text and the whole next state (R114). (R114; the ABI names but t1, s1 and t9 are the spec's general knowledge, R86, log entry 7) -/
def Obligations.SltDecodesAndRenders : Prop :=
  (∀ (rs rt rd : RegIndex) (ignored : BitVec 5) (s : State) (p : InPorts) (rest : List InPorts), s.inputs = p :: rest →
    exec (.slt rs rt rd ignored) s =
      .next (afterWord s rest
        (.ok { addr := addressOf s p, word := p.wordIn, fmt := .rFormat, mnem := .slt,
               fields := .r { rs := rs, rt := rt, rd := rd, funct := 0x2A#6 }, target := none,
               text := "slt ".toList ++ reg s.cfg.naming rd ++ ", ".toList ++ reg s.cfg.naming rs ++ ", ".toList ++
                 reg s.cfg.naming rt })
        s.halted)) ∧
  (∀ (s : State) (p : InPorts) (rest : List InPorts), Presents s p rest → p.wordIn &&& 0xFC00003F#32 = 0x0000002A#32 →
    step s =
      .next (afterWord s rest
        (.ok { addr := addressOf s p, word := p.wordIn, fmt := .rFormat, mnem := .slt,
               fields := .r { rs := p.wordIn.extractLsb' 21 5, rt := p.wordIn.extractLsb' 16 5,
                              rd := p.wordIn.extractLsb' 11 5, funct := 0x2A#6 },
               target := none,
               text := "slt ".toList ++ reg s.cfg.naming (p.wordIn.extractLsb' 11 5) ++ ", ".toList ++
                 reg s.cfg.naming (p.wordIn.extractLsb' 21 5) ++ ", ".toList ++ reg s.cfg.naming (p.wordIn.extractLsb' 16 5) })
        s.halted)) ∧
  RendersAs 0x0100502A#32 "slt $10, $8, $0" "slt $t2, $t0, $zero" ∧
  RendersAs 0x00221FEA#32 "slt $3, $1, $2" "slt $v1, $at, $v0" ∧
  (∀ w : Word, w &&& 0xFC00003F#32 = 0x0000002B#32 → RaisesUnsupported w .funct 0x2B#6)

/-- lw: the result record, the text and the whole next state (R120). (R120; R120 is the spec's decision D25; the ABI names but t1, s1 and t9 are the spec's general knowledge, R86, log entry 7) -/
def Obligations.LwDecodesAndRenders : Prop :=
  (∀ (rs rt : RegIndex) (simm : Int) (s : State) (p : InPorts) (rest : List InPorts), (Instr.lw rs rt simm).wellFormed = true →
    s.inputs = p :: rest →
    exec (.lw rs rt simm) s =
      .next (afterWord s rest
        (.ok { addr := addressOf s p, word := p.wordIn, fmt := .iFormat, mnem := .lw,
               fields := .i { opcode := 0x23#6, rs := rs, rt := rt, imm16 := BitVec.ofInt 16 simm }, target := none,
               text := "lw ".toList ++ reg s.cfg.naming rt ++ ", ".toList ++ sdec simm ++ "(".toList ++ reg s.cfg.naming rs ++
                 ")".toList })
        s.halted)) ∧
  (∀ (s : State) (p : InPorts) (rest : List InPorts), Presents s p rest → p.wordIn &&& 0xFC000000#32 = 0x8C000000#32 →
    step s =
      .next (afterWord s rest
        (.ok { addr := addressOf s p, word := p.wordIn, fmt := .iFormat, mnem := .lw,
               fields := .i { opcode := 0x23#6, rs := p.wordIn.extractLsb' 21 5, rt := p.wordIn.extractLsb' 16 5,
                              imm16 := p.wordIn.extractLsb' 0 16 },
               target := none,
               text := "lw ".toList ++ reg s.cfg.naming (p.wordIn.extractLsb' 16 5) ++ ", ".toList ++
                 sdec (p.wordIn.extractLsb' 0 16).toInt ++ "(".toList ++ reg s.cfg.naming (p.wordIn.extractLsb' 21 5) ++
                 ")".toList })
        s.halted)) ∧
  RendersAs 0x8D3104D2#32 "lw $17, 1234($9)" "lw $s1, 1234($t1)" ∧
  RendersAs 0x8D31FB2E#32 "lw $17, -1234($9)" "lw $s1, -1234($t1)" ∧
  RendersAs 0x8FBF8000#32 "lw $31, -32768($29)" "lw $ra, -32768($sp)" ∧
  RendersAs 0x8C000000#32 "lw $0, 0($0)" "lw $zero, 0($zero)" ∧
  RendersAs 0x8FFF7FFF#32 "lw $31, 32767($31)" "lw $ra, 32767($ra)" ∧
  RendersAs 0x8C88FFFF#32 "lw $8, -1($4)" "lw $t0, -1($a0)"

/-- sw: the result record, the text and the whole next state (R121). (R121; R121 is the spec's decision D25; the ABI names but t1, s1 and t9 are the spec's general knowledge, R86, log entry 7) -/
def Obligations.SwDecodesAndRenders : Prop :=
  (∀ (rs rt : RegIndex) (simm : Int) (s : State) (p : InPorts) (rest : List InPorts), (Instr.sw rs rt simm).wellFormed = true →
    s.inputs = p :: rest →
    exec (.sw rs rt simm) s =
      .next (afterWord s rest
        (.ok { addr := addressOf s p, word := p.wordIn, fmt := .iFormat, mnem := .sw,
               fields := .i { opcode := 0x2B#6, rs := rs, rt := rt, imm16 := BitVec.ofInt 16 simm }, target := none,
               text := "sw ".toList ++ reg s.cfg.naming rt ++ ", ".toList ++ sdec simm ++ "(".toList ++ reg s.cfg.naming rs ++
                 ")".toList })
        s.halted)) ∧
  (∀ (s : State) (p : InPorts) (rest : List InPorts), Presents s p rest → p.wordIn &&& 0xFC000000#32 = 0xAC000000#32 →
    step s =
      .next (afterWord s rest
        (.ok { addr := addressOf s p, word := p.wordIn, fmt := .iFormat, mnem := .sw,
               fields := .i { opcode := 0x2B#6, rs := p.wordIn.extractLsb' 21 5, rt := p.wordIn.extractLsb' 16 5,
                              imm16 := p.wordIn.extractLsb' 0 16 },
               target := none,
               text := "sw ".toList ++ reg s.cfg.naming (p.wordIn.extractLsb' 16 5) ++ ", ".toList ++
                 sdec (p.wordIn.extractLsb' 0 16).toInt ++ "(".toList ++ reg s.cfg.naming (p.wordIn.extractLsb' 21 5) ++
                 ")".toList })
        s.halted)) ∧
  RendersAs 0xAD3104D2#32 "sw $17, 1234($9)" "sw $s1, 1234($t1)" ∧
  RendersAs 0xAFFF7FFF#32 "sw $31, 32767($31)" "sw $ra, 32767($ra)" ∧
  RendersAs 0xAC88FFFF#32 "sw $8, -1($4)" "sw $t0, -1($a0)" ∧
  RendersAs 0xAFBF8000#32 "sw $31, -32768($29)" "sw $ra, -32768($sp)" ∧
  RendersAs 0xAC000000#32 "sw $0, 0($0)" "sw $zero, 0($zero)"

/-- beq: the target, the result record, the text and the whole next state (R130). (R130; the ABI names but t1, s1 and t9 are the spec's general knowledge, R86, log entry 7) -/
def Obligations.BeqDecodesAndRenders : Prop :=
  (∀ (rs rt : RegIndex) (simm : Int) (s : State) (p : InPorts) (rest : List InPorts), (Instr.beq rs rt simm).wellFormed = true →
    s.inputs = p :: rest →
    exec (.beq rs rt simm) s =
      .next (afterWord s rest
        (.ok { addr := addressOf s p, word := p.wordIn, fmt := .iFormat, mnem := .beq,
               fields := .i { opcode := 0x04#6, rs := rs, rt := rt, imm16 := BitVec.ofInt 16 simm },
               target := some (addressOf s p + 4#32 + BitVec.ofInt 32 (4 * simm)),
               text := "beq ".toList ++ reg s.cfg.naming rs ++ ", ".toList ++ reg s.cfg.naming rt ++ ", address ".toList ++
                 hexU (addressOf s p + 4#32 + BitVec.ofInt 32 (4 * simm)) })
        s.halted)) ∧
  (∀ (s : State) (p : InPorts) (rest : List InPorts), Presents s p rest → p.wordIn &&& 0xFC000000#32 = 0x10000000#32 →
    ∃ t r, step s = .next t ∧
      r = { addr := addressOf s p, word := p.wordIn, fmt := .iFormat, mnem := .beq,
            fields := .i { opcode := 0x04#6, rs := p.wordIn.extractLsb' 21 5, rt := p.wordIn.extractLsb' 16 5,
                           imm16 := p.wordIn.extractLsb' 0 16 },
            target := some ((addressOf s p + 4#32) + (p.wordIn.extractLsb' 0 16).signExtend 32 <<< 2),
            text := "beq ".toList ++ reg s.cfg.naming (p.wordIn.extractLsb' 21 5) ++ ", ".toList ++
              reg s.cfg.naming (p.wordIn.extractLsb' 16 5) ++ ", address ".toList ++
              hexU ((addressOf s p + 4#32) + (p.wordIn.extractLsb' 0 16).signExtend 32 <<< 2) } ∧
      t = afterWord s rest (.ok r) s.halted ∧ t.outPorts.hasTarget = some true) ∧
  BranchRendersAs 0x0007A090#32 0x12290000#32 0x0007A094#32 "beq $17, $9, address 7A094" "beq $s1, $t1, address 7A094" ∧
  BranchRendersAs 0x0007A090#32 0x1022FFFF#32 0x0007A090#32 "beq $1, $2, address 7A090" "beq $at, $v0, address 7A090" ∧
  BranchRendersAs 0x0007A090#32 0x10227FFF#32 0x0009A090#32 "beq $1, $2, address 9A090" "beq $at, $v0, address 9A090" ∧
  BranchRendersAs 0x0007A090#32 0x10228000#32 0x0005A094#32 "beq $1, $2, address 5A094" "beq $at, $v0, address 5A094" ∧
  BranchRendersAs 0xFFFFFFFC#32 0x10640000#32 0x00000000#32 "beq $3, $4, address 0" "beq $v1, $a0, address 0"

/-- bne: the target, the result record, the text and the whole next state (R131). (R131; the ABI names but t1, s1 and t9 are the spec's general knowledge, R86, log entry 7) -/
def Obligations.BneDecodesAndRenders : Prop :=
  (∀ (rs rt : RegIndex) (simm : Int) (s : State) (p : InPorts) (rest : List InPorts), (Instr.bne rs rt simm).wellFormed = true →
    s.inputs = p :: rest →
    exec (.bne rs rt simm) s =
      .next (afterWord s rest
        (.ok { addr := addressOf s p, word := p.wordIn, fmt := .iFormat, mnem := .bne,
               fields := .i { opcode := 0x05#6, rs := rs, rt := rt, imm16 := BitVec.ofInt 16 simm },
               target := some (addressOf s p + 4#32 + BitVec.ofInt 32 (4 * simm)),
               text := "bne ".toList ++ reg s.cfg.naming rs ++ ", ".toList ++ reg s.cfg.naming rt ++ ", address ".toList ++
                 hexU (addressOf s p + 4#32 + BitVec.ofInt 32 (4 * simm)) })
        s.halted)) ∧
  (∀ (s : State) (p : InPorts) (rest : List InPorts), Presents s p rest → p.wordIn &&& 0xFC000000#32 = 0x14000000#32 →
    ∃ t r, step s = .next t ∧
      r = { addr := addressOf s p, word := p.wordIn, fmt := .iFormat, mnem := .bne,
            fields := .i { opcode := 0x05#6, rs := p.wordIn.extractLsb' 21 5, rt := p.wordIn.extractLsb' 16 5,
                           imm16 := p.wordIn.extractLsb' 0 16 },
            target := some ((addressOf s p + 4#32) + (p.wordIn.extractLsb' 0 16).signExtend 32 <<< 2),
            text := "bne ".toList ++ reg s.cfg.naming (p.wordIn.extractLsb' 21 5) ++ ", ".toList ++
              reg s.cfg.naming (p.wordIn.extractLsb' 16 5) ++ ", address ".toList ++
              hexU ((addressOf s p + 4#32) + (p.wordIn.extractLsb' 0 16).signExtend 32 <<< 2) } ∧
      t = afterWord s rest (.ok r) s.halted ∧ t.outPorts.hasTarget = some true) ∧
  BranchRendersAs 0x0007A090#32 0x16290000#32 0x0007A094#32 "bne $17, $9, address 7A094" "bne $s1, $t1, address 7A094" ∧
  BranchRendersAs 0x00000000#32 0x1400FFFE#32 0xFFFFFFFC#32 "bne $0, $0, address FFFFFFFC" "bne $zero, $zero, address FFFFFFFC" ∧
  BranchRendersAs 0x00400000#32 0x1500FFFC#32 0x003FFFF4#32 "bne $8, $0, address 3FFFF4" "bne $t0, $zero, address 3FFFF4" ∧
  BranchRendersAs 0x0007A090#32 0x1422FFFF#32 0x0007A090#32 "bne $1, $2, address 7A090" "bne $at, $v0, address 7A090" ∧
  BranchRendersAs 0x0007A090#32 0x14227FFF#32 0x0009A090#32 "bne $1, $2, address 9A090" "bne $at, $v0, address 9A090" ∧
  BranchRendersAs 0x0007A090#32 0x14228000#32 0x0005A094#32 "bne $1, $2, address 5A094" "bne $at, $v0, address 5A094" ∧
  BranchRendersAs 0xFFFFFFFC#32 0x14640000#32 0x00000000#32 "bne $3, $4, address 0" "bne $v1, $a0, address 0"

/-- What no instruction changes: CFG, the ROMs, HALTED, and SEQ_ADDR but for the sequencer's advance. (41_r_format.md, 42_load_store.md, 43_branch.md, 10_state.md) -/
def Obligations.DecodingLeavesTheRestUnchanged : Prop :=
  ∀ (i : Instr) (s t : State), exec i s = .next t →
    t.cfg = s.cfg ∧ t.roms = s.roms ∧ t.halted = s.halted ∧
    t.seqAddr = (if s.cfg.seqEn then s.seqAddr + 4#32 else s.seqAddr) ∧
    s.inputs ≠ [] ∧ t.inputs = s.inputs.tail ∧
    ∃ r, t.out = some r ∧ t.results = s.results ++ [r] ∧ r.isErr = false

/-- A step on a presented word that decodes is the decoded instruction's meaning. (40_decode_datapath.md) -/
def Obligations.StepRunsDecodedInstruction : Prop :=
  ∀ (s : State) (p : InPorts) (rest : List InPorts) (i : Instr), Presents s p rest → decodeWord s.roms p.wordIn = .instr i →
    i.wellFormed = true ∧ step s = exec i s ∧ ∃ t, step s = .next t ∧ t.inputs = rest

/-- The word placed by withFetchWord is the one the next step runs. (40_decode_datapath.md, 70_reset_and_hazards.md) -/
def Obligations.PlacedWordRunsNext : Prop :=
  ∀ (s : State) (nbits w : Nat) (i : Instr), s.halted = false → decodeTableWord nbits w = some i →
    step (s.withFetchWord nbits w) = exec i (s.withFetchWord nbits w) ∧ ∃ t, step (s.withFetchWord nbits w) = .next t

/-- The machine's step is the block step of R102 over the decoding function of R101. That an idle step of a halted block holds the state is the model's reading, log entry 4. (40_decode_datapath.md) -/
def Obligations.StepFollowsBlockStep : Prop :=
  ∀ (s : State) (p : InPorts) (rest : List InPorts), s.inputs = p :: rest → p.rst = false →
    (p.inValid = false → step s = .next { s with inputs := rest, out := none }) ∧
    (p.inValid = true →
      match datapathStep s.roms s.cfg s.seqAddr s.halted p.wordIn p.addrIn with
      | none => s.halted = true ∧ step s = .fault .halted
      | some (seqAddr', halted', r) =>
        ∃ t, step s = .next t ∧
          t = { seqAddr := seqAddr', halted := halted', cfg := s.cfg, roms := s.roms, inputs := rest, out := some r,
                results := s.results ++ [r] } ∧
          t.outPorts.outValid = true ∧ t.outPorts.halted = some halted')

/-- A run that is not strict decodes every presented word in order, one result a word. (40_decode_datapath.md, 20_memory.md, 10_state.md, 60_exceptions.md, 70_reset_and_hazards.md) -/
def Obligations.RunDecodesEveryWordInOrder : Prop :=
  ∀ (s : State) (ps rest : List InPorts), AllWords ps → s.inputs = ps ++ rest → s.halted = false → s.cfg.strict = false →
    ∃ t : State, Host.Core.run Sys2Proof.core ps.length s = .next t ∧
      t.results = s.results ++ ps.mapIdx (fun k p =>
        datapathDecode s.roms p.wordIn
          (if s.cfg.seqEn then s.seqAddr + BitVec.ofNat 32 (4 * (k + 1)) else p.addrIn) s.cfg.naming) ∧
      t.seqAddr = (if s.cfg.seqEn then s.seqAddr + BitVec.ofNat 32 (4 * ps.length) else s.seqAddr) ∧
      t.halted = false ∧ t.cfg = s.cfg ∧ t.inputs = rest

/-- With the sequencer on, the k-th word after reset is decoded at BASE + 4k: rule R26, which the spec marks as derived from R25 and R36. (10_state.md, 40_decode_datapath.md) -/
def Obligations.SequencedWordsAreFourApart : Prop :=
  ∀ (c : Config) (ps : List InPorts) (n : Nat) (t : State), c.seqEn = true → AllWords ps →
    Host.Core.run Sys2Proof.core n { State.resetWith c with inputs := ps } = .next t →
    t.results.length = n ∧
    ∀ (k : Nat) (p : InPorts), k < n → ps[k]? = some p →
      t.results[k]? = some (datapathDecode builtRoms p.wordIn (c.base + BitVec.ofNat 32 (4 * (k + 1))) c.naming)

/-- A strict run emits the first Err, halts, and has no further step. (R147; R147 is the spec's decision D10) -/
def Obligations.StrictRunEndsAtFirstErr : Prop :=
  ∀ (s : State) (good more : List InPorts) (bad : InPorts) (kind : ErrKind) (code : Code),
    AllWords good → AllWords (bad :: more) → s.inputs = good ++ bad :: more → s.halted = false → s.cfg.strict = true →
    (∀ p ∈ good, ∃ i, decodeWord s.roms p.wordIn = .instr i) → decodeWord s.roms bad.wordIn = .unsupported kind code →
    ∃ (t : State) (e : ErrRecord) (oks : List Result), Host.Core.run Sys2Proof.core (good.length + 1) s = .next t ∧
      t.halted = true ∧ t.inputs = more ∧ t.out = some (.err e) ∧
      e.word = bad.wordIn ∧ e.kind = kind ∧ e.code = code ∧
      t.results = s.results ++ oks ++ [.err e] ∧ oks.map Result.word = good.map InPorts.wordIn ∧
      (∀ r ∈ oks, r.isErr = false) ∧
      (more ≠ [] → ∀ n, Host.Core.run Sys2Proof.core (good.length + 1 + (n + 1)) s = .fault .halted)

/-- A halted block consumes no word (R107), an idle step leaves it halted (log entry 4), and only reset lifts HALTED, answering the reset state (R160; log entry 5). (40_decode_datapath.md, 10_state.md, 70_reset_and_hazards.md) -/
def Obligations.HaltedBlockHasNoStep : Prop :=
  ∀ (s : State) (p : InPorts) (rest : List InPorts), s.halted = true → s.inputs = p :: rest →
    (p.rst = false → p.inValid = true → step s = .fault .halted) ∧
    (p.rst = false → p.inValid = false → step s = .next { s with inputs := rest, out := none }) ∧
    (p.rst = true →
      step s = .next
        { State.resetWith { base := p.cfgBase, seqEn := p.cfgSeqEn, naming := if p.cfgRegNaming then .abi else .numeric,
                            strict := p.cfgStrict } with
          inputs := rest }) ∧
    (∀ t, step s = .next t → t.halted = false → p.rst = true)

/-- HALTED: set by an Err in strict mode only (R30), cleared by reset only (R30, R160). That reset clears it also in a step with in_valid = 1 is the model's reading, log entry 5; that a halted block may be left idle is log entry 4. (10_state.md, 40_decode_datapath.md, 70_reset_and_hazards.md) -/
def Obligations.HaltedFlagRule : Prop :=
  (∀ c : Config, (State.resetWith c).halted = false) ∧
  (∀ (s : State) (p : InPorts) (rest : List InPorts), Presents s p rest →
    ∃ t r, step s = .next t ∧ t.out = some r ∧ (t.halted = true ↔ s.cfg.strict = true ∧ r.isErr = true)) ∧
  (∀ s t : State, step s = .next t → s.halted = true →
    (∃ p rest, s.inputs = p :: rest ∧ p.rst = true ∧ t.halted = false) ∨
    (∃ p rest, s.inputs = p :: rest ∧ p.inValid = false ∧ t.halted = true ∧ t.out = none ∧ t.results = s.results))

/-- Between steps the block holds its state. That a halted block may be left idle is log entry 4; that no output but out_valid carries a value in an idle step is log entry 8. (60_exceptions.md, 40_decode_datapath.md) -/
def Obligations.IdleStepHoldsState : Prop :=
  ∀ (s : State) (p : InPorts) (rest : List InPorts), s.inputs = p :: rest → p.rst = false → p.inValid = false →
    ∃ t, step s = .next t ∧ t.seqAddr = s.seqAddr ∧ t.halted = s.halted ∧ t.cfg = s.cfg ∧ t.roms = s.roms ∧
      t.results = s.results ∧ t.inputs = rest ∧ t.outPorts = silentPorts

/-- A run ends exactly when the input is exhausted or a halted block is presented a word. (40_decode_datapath.md) -/
def Obligations.RunEndsExactlyWhen : Prop :=
  ∀ s : State,
    (step s = .fault .inputExhausted ↔ s.inputs = []) ∧
    (step s = .fault .halted ↔
      s.halted = true ∧ ∃ p rest, s.inputs = p :: rest ∧ p.rst = false ∧ p.inValid = true) ∧
    ((∃ t, step s = .next t) ∨ step s = .fault .inputExhausted ∨ step s = .fault .halted)

/-- Reset captures CFG, loads SEQ_ADDR with BASE and clears HALTED, and no other step changes CFG or clears HALTED (R160). That it acts also with in_valid = 1, the word being dropped, is the model's reading, log entry 5. (70_reset_and_hazards.md, 10_state.md) -/
def Obligations.ResetCapturesConfiguration : Prop :=
  (∀ (s : State) (p : InPorts) (rest : List InPorts), s.inputs = p :: rest → p.rst = true →
    ∃ t, step s = .next t ∧
      t.cfg = { base := p.cfgBase, seqEn := p.cfgSeqEn, naming := if p.cfgRegNaming then .abi else .numeric,
                strict := p.cfgStrict } ∧
      t.seqAddr = p.cfgBase ∧ t.halted = false ∧ t.roms = s.roms ∧ t.inputs = rest) ∧
  (∀ s t : State, step s = .next t → t.cfg ≠ s.cfg ∨ (s.halted = true ∧ t.halted = false) →
    ∃ p rest, s.inputs = p :: rest ∧ p.rst = true)

/-- After reset no output carries a value, and the first sequenced word is at BASE + 4 (R161). That a reset step presents no result also with in_valid = 1 is the model's reading, log entry 5. (70_reset_and_hazards.md) -/
def Obligations.NoResultAfterReset : Prop :=
  ∀ (s : State) (p : InPorts) (rest : List InPorts), s.inputs = p :: rest → p.rst = true →
    ∃ t, step s = .next t ∧
      t.outPorts =
        { outValid := false, ok := none, errKind := none, errCode := none, curAddr := none, wordOut := none, fmt := none,
          mnem := none, opcode := none, rs := none, rt := none, rd := none, funct := none, imm := none, hasTarget := none,
          target := none, text := none, addrText := none, halted := none } ∧
      ∀ (q : InPorts) (rest' : List InPorts), rest = q :: rest' → q.rst = false → q.inValid = true → p.cfgSeqEn = true →
        ∃ u r, step t = .next u ∧ u.out = some r ∧ r.addr = p.cfgBase + 4#32

/-- The state right after reset, for any configuration and for the default one. (10_state.md, 70_reset_and_hazards.md) -/
def Obligations.ResetStateValues : Prop :=
  (∀ c : Config, (State.resetWith c).seqAddr = c.base ∧ (State.resetWith c).halted = false ∧ (State.resetWith c).cfg = c ∧
    (State.resetWith c).roms.r = rRomContents ∧ (State.resetWith c).roms.i = iRomContents ∧
    (State.resetWith c).outPorts = silentPorts) ∧
  State.reset.cfg.base = 0x0007A05C#32 ∧ State.reset.cfg.naming = .numeric ∧ State.reset.cfg.strict = false ∧
  State.reset.cfg.seqEn = true ∧ State.reset.seqAddr = 0x0007A05C#32 ∧ State.reset.halted = false

/-- No step but a reset changes CFG. (R168; R168 is the spec's decision D3) -/
def Obligations.CfgConstantDuringRun : Prop :=
  ∀ (s t : State) (p : InPorts) (rest : List InPorts), s.inputs = p :: rest → p.rst = false → step s = .next t → t.cfg = s.cfg

/-- SEQ_ADDR and CUR_ADDR of every consumed word, sequencer on and off, with the wrap. (R25, R27, R28; R25 is the spec's decision D9; R27 is the spec's decision D24; R28 is the spec's decision D6) -/
def Obligations.SequencerAdvances : Prop :=
  ∀ (s : State) (p : InPorts) (rest : List InPorts), Presents s p rest →
    ∃ t r, step s = .next t ∧ t.out = some r ∧
      (s.cfg.seqEn = true →
        t.seqAddr.toNat = (s.seqAddr.toNat + 4) % 2 ^ 32 ∧ r.addr = t.seqAddr ∧
        (s.seqAddr = 0xFFFFFFFC#32 → t.seqAddr = 0x00000000#32)) ∧
      (s.cfg.seqEn = false → t.seqAddr = s.seqAddr ∧ r.addr = p.addrIn)

/-- No alignment: every address is used as it stands and raises nothing. (R29; R29 is the spec's decision D14) -/
def Obligations.AnyAddressIsAccepted : Prop :=
  (∀ (s : State) (p : InPorts) (rest : List InPorts), Presents s p rest →
    ∃ t r, step s = .next t ∧ t.out = some r ∧ r.addr = (if s.cfg.seqEn then s.seqAddr + 4#32 else p.addrIn) ∧
      (r.isErr = true ↔ ∃ kind code, decodeWord s.roms p.wordIn = .unsupported kind code) ∧
      ∀ rec, r = .ok rec → ∀ target, rec.target = some target → target.toNat % 4 = r.addr.toNat % 4) ∧
  (∀ (a : Word) (imm16 : Imm), (branchTarget a imm16).toNat % 4 = a.toNat % 4)

/-- Raising UnsupportedEncoding: the Err record and exactly the state changes of R145. (R142, R145; R142 is the spec's decision D8) -/
def Obligations.UnsupportedWordEmitsErr : Prop :=
  ∀ (s : State) (p : InPorts) (rest : List InPorts), Presents s p rest →
    (p.wordIn.extractLsb' 26 6 ≠ 0#6 → p.wordIn.extractLsb' 26 6 ∉ [0x04#6, 0x05#6, 0x23#6, 0x2B#6] →
      step s = .next (afterWord s rest
        (.err { addr := addressOf s p, word := p.wordIn, kind := .opcode, code := p.wordIn.extractLsb' 26 6 }) s.cfg.strict)) ∧
    (p.wordIn.extractLsb' 26 6 = 0#6 → p.wordIn.extractLsb' 0 6 ∉ [0x20#6, 0x22#6, 0x24#6, 0x25#6, 0x2A#6] →
      step s = .next (afterWord s rest
        (.err { addr := addressOf s p, word := p.wordIn, kind := .funct, code := p.wordIn.extractLsb' 0 6 }) s.cfg.strict))

/-- The two causes, when each is raised, the code each reports, and the err_kind of each. (R141; R141 is the spec's decision D8) -/
def Obligations.ErrRaisedExactlyWhen : Prop :=
  ∀ (s : State) (p : InPorts) (rest : List InPorts), Presents s p rest →
    ∃ t, step s = .next t ∧ t.outPorts.ok = some (!(
        (decide (p.wordIn.extractLsb' 26 6 ≠ 0#6) && decide (p.wordIn.extractLsb' 26 6 ∉ [0x04#6, 0x05#6, 0x23#6, 0x2B#6])) ||
        (decide (p.wordIn.extractLsb' 26 6 = 0#6) &&
          decide (p.wordIn.extractLsb' 0 6 ∉ [0x20#6, 0x22#6, 0x24#6, 0x25#6, 0x2A#6])))) ∧
      (t.outPorts.errKind = some 0#1 ↔
        p.wordIn.extractLsb' 26 6 ≠ 0#6 ∧ p.wordIn.extractLsb' 26 6 ∉ [0x04#6, 0x05#6, 0x23#6, 0x2B#6]) ∧
      (t.outPorts.errKind = some 1#1 ↔
        p.wordIn.extractLsb' 26 6 = 0#6 ∧ p.wordIn.extractLsb' 0 6 ∉ [0x20#6, 0x22#6, 0x24#6, 0x25#6, 0x2A#6]) ∧
      (t.outPorts.errKind = some 0#1 → t.outPorts.errCode = some (p.wordIn.extractLsb' 26 6)) ∧
      (t.outPorts.errKind = some 1#1 → t.outPorts.errCode = some (p.wordIn.extractLsb' 0 6)) ∧
      ∀ e, t.out = some (.err e) → t.outPorts.errKind = some (match e.kind with | .opcode => 0#1 | .funct => 1#1)

/-- Without strict mode the block goes on after an Err as after an Ok. (R146) -/
def Obligations.ContinuesAfterErr : Prop :=
  ∀ (s : State) (p q : InPorts) (rest : List InPorts), Presents s p (q :: rest) → s.cfg.strict = false → q.rst = false →
    q.inValid = true →
    ∃ t u r r', step s = .next t ∧ t.out = some r ∧ t.halted = false ∧ step t = .next u ∧ u.out = some r' ∧
      r' = datapathDecode s.roms q.wordIn (addressOf t q) s.cfg.naming ∧ u.results = s.results ++ [r, r'] ∧ u.halted = false

/-- The all-zero word and the source's unsupported codes. (30_encoding.md, 95_test_vectors.md) -/
def Obligations.UnsupportedExamplesRaise : Prop :=
  RaisesUnsupported 0x00000000#32 .funct 0x00#6 ∧ RaisesUnsupported 0x0000003F#32 .funct 0x3F#6 ∧
  RaisesUnsupported 0xF8000000#32 .opcode 0x3E#6 ∧ RaisesUnsupported 0xFFFFFFFF#32 .opcode 0x3F#6

/-- The format of a word is fixed by bits 31-26 alone. (R61) -/
def Obligations.FormatFixedByOpcode : Prop :=
  (∀ w : Word, (classify w = .rFormat ↔ w.extractLsb' 26 6 = 0#6) ∧ (classify w = .iFormat ↔ w.extractLsb' 26 6 ≠ 0#6)) ∧
  (∀ (roms : Roms) (w : Word), classify w = .iFormat → w.extractLsb' 26 6 ∉ [0x04#6, 0x05#6, 0x23#6, 0x2B#6] →
    decodeWord roms w = .unsupported .opcode (w.extractLsb' 26 6))

/-- Field extraction equals the source's masks and shifts. (R65) -/
def Obligations.FieldsByMaskAndShift : Prop :=
  ∀ w : Word,
    (opcodeOf w).setWidth 32 = (w &&& 0xFC000000#32) >>> 26 ∧ (opcodeOf w).setWidth 32 = (w >>> 26) &&& 0x3F#32 ∧
    (rsOf w).setWidth 32 = (w &&& 0x03E00000#32) >>> 21 ∧ (rtOf w).setWidth 32 = (w &&& 0x001F0000#32) >>> 16 ∧
    (rdOf w).setWidth 32 = (w &&& 0x0000F800#32) >>> 11 ∧ (functOf w).setWidth 32 = w &&& 0x0000003F#32 ∧
    (immOf w).setWidth 32 = w &&& 0x0000FFFF#32 ∧
    signed16 (immOf w) = (if (immOf w).toNat < 32768 then ((immOf w).toNat : Int) else (immOf w).toNat - 65536)

/-- R_ROM and I_ROM hold the tables of R95 and R96 in every state. (R95, R96; R95 is the spec's decision D20, D21; R96 is the spec's decision D20) -/
def Obligations.RomContentsOfEveryState : Prop :=
  ∀ s : State, s.roms.r.length = 64 ∧ s.roms.i.length = 64 ∧
    (∀ k : Code, romRead s.roms.r k =
      if k = 0x20#6 then { valid := true, id := 0#4 } else if k = 0x22#6 then { valid := true, id := 1#4 }
      else if k = 0x24#6 then { valid := true, id := 2#4 } else if k = 0x25#6 then { valid := true, id := 3#4 }
      else if k = 0x2A#6 then { valid := true, id := 4#4 } else { valid := false, id := 0#4 }) ∧
    (∀ k : Code, romRead s.roms.i k =
      if k = 0x04#6 then { valid := true, id := 7#4 } else if k = 0x05#6 then { valid := true, id := 8#4 }
      else if k = 0x23#6 then { valid := true, id := 5#4 } else if k = 0x2B#6 then { valid := true, id := 6#4 }
      else { valid := false, id := 0#4 })

/-- Ids, formats, selectors, classes and has_target of the nine mnemonics. (R98; R98 is the spec's decision D21) -/
def Obligations.MnemonicIdsAndClasses : Prop :=
  (allMnems.map fun m => (mnemId m, selectorOf m, classOf m, hasTarget m)) =
    [(0#4, 0x20#6, .arith, false), (1#4, 0x22#6, .arith, false), (2#4, 0x24#6, .arith, false), (3#4, 0x25#6, .arith, false),
     (4#4, 0x2A#6, .arith, false), (5#4, 0x23#6, .mem, false), (6#4, 0x2B#6, .mem, false), (7#4, 0x04#6, .branch, true),
     (8#4, 0x05#6, .branch, true)] ∧
  allMnems = [.add, .sub, .and, .or, .slt, .lw, .sw, .beq, .bne] ∧
  (∀ k : BitVec 4, 9 ≤ k.toNat → mnemOfId k = none) ∧
  (∀ (s t : State) (id : BitVec 4), step s = .next t → t.outPorts.mnem = some id → id.toNat ≤ 8) ∧
  (∀ (s t : State) (r : OkRecord), step s = .next t → t.out = some (.ok r) →
    (r.fmt = .rFormat ↔ classOf r.mnem = .arith) ∧
    (r.fmt = .rFormat → r.word.extractLsb' 0 6 = selectorOf r.mnem) ∧
    (r.fmt = .iFormat → r.word.extractLsb' 26 6 = selectorOf r.mnem))

/-- The unsupported space, exactly: R72, which the spec marks as derived from R70 and R71. (30_encoding.md) -/
def Obligations.UnsupportedSpaceIsExact : Prop :=
  ((List.range 64).filter unsupportedOpcode).length = 59 ∧ ((List.range 64).filter unsupportedFunct).length = 59 ∧
  ∀ (roms : Roms) (w : Word),
    ((∃ code, decodeWord roms w = .unsupported .opcode code) ↔ unsupportedOpcode (w.extractLsb' 26 6).toNat = true) ∧
    ((∃ code, decodeWord roms w = .unsupported .funct code) ↔
      w.extractLsb' 26 6 = 0#6 ∧ unsupportedFunct (w.extractLsb' 0 6).toNat = true) ∧
    (∀ code, decodeWord roms w = .unsupported .opcode code → code = w.extractLsb' 26 6) ∧
    (∀ code, decodeWord roms w = .unsupported .funct code → code = w.extractLsb' 0 6) ∧
    (∀ kind code, decodeWord roms w = .unsupported kind code → RaisesUnsupported w kind code)

/-- Decoding is unambiguous: one row of the opcode table, or UnsupportedEncoding. (R74) -/
def Obligations.EachWordHasOneOutcome : Prop :=
  ∀ (roms : Roms) (w : Word),
    (∃ i row, decodeWord roms w = .instr i ∧ row ∈ opcodeTable ∧ row.mnem = i.mnem ∧ row.matchesWord w = true ∧
      ∀ row' ∈ opcodeTable, row'.matchesWord w = true → row' = row) ∨
    (∃ kind code, decodeWord roms w = .unsupported kind code ∧ ∀ row ∈ opcodeTable, row.matchesWord w = false)

/-- Decoding the encoding of a well-formed instruction gives it back. (30_encoding.md, 40_decode_datapath.md) -/
def Obligations.DecodeOfEncodeIsIdentity : Prop :=
  ∀ (roms : Roms) (i : Instr), i.wellFormed = true →
    decodeWord roms (encode i) = .instr i ∧ decodeTableWord 32 (encode i).toNat = some i

/-- A word that decodes is the encoding of what it decodes to, and that is well formed. (30_encoding.md, 40_decode_datapath.md) -/
def Obligations.EncodeOfDecodeIsIdentity : Prop :=
  ∀ (roms : Roms) (w : Word) (i : Instr), decodeWord roms w = .instr i → i.wellFormed = true ∧ encode i = w

/-- Words written out in the spec decode to the instructions they stand for. (95_test_vectors.md, 30_encoding.md) -/
def Obligations.SpecWordsDecode : Prop :=
  decodeWord builtRoms 0x01398820#32 = .instr (.add 9#5 25#5 17#5 0#5) ∧
  decodeWord builtRoms 0x00221FE2#32 = .instr (.sub 1#5 2#5 3#5 31#5) ∧
  decodeWord builtRoms 0x0100502A#32 = .instr (.slt 8#5 0#5 10#5 0#5) ∧
  decodeWord builtRoms 0x8D31FB2E#32 = .instr (.lw 9#5 17#5 (-1234)) ∧
  decodeWord builtRoms 0xAD3104D2#32 = .instr (.sw 9#5 17#5 1234) ∧
  decodeWord builtRoms 0x1140FFFB#32 = .instr (.beq 10#5 0#5 (-5)) ∧
  decodeWord builtRoms 0x16290000#32 = .instr (.bne 17#5 9#5 0)

/-- R-format bits 10-6 are read by no rule: R63, which the spec marks as derived from R62 and R141. (30_encoding.md) -/
def Obligations.IgnoredBitsAreNotRead : Prop :=
  ∀ (s : State) (p : InPorts) (rest : List InPorts) (w' : Word), Presents s p rest → p.wordIn.extractLsb' 26 6 = 0#6 →
    w' &&& 0xFFFFF83F#32 = p.wordIn &&& 0xFFFFF83F#32 →
    ∃ t t' r r', step s = .next t ∧ step { s with inputs := { p with wordIn := w' } :: rest } = .next t' ∧
      t.out = some r ∧ t'.out = some r' ∧ r' = r.setWord w' ∧ r'.isErr = r.isErr ∧
      t'.seqAddr = t.seqAddr ∧ t'.halted = t.halted ∧ t'.cfg = t.cfg ∧ t'.inputs = t.inputs

/-- The branch-target adder: A + 4 + 4 * simm modulo 2^32, with the corner cases. (R99; R99 is the spec's decision D6, D7) -/
def Obligations.BranchTargetArithmetic : Prop :=
  (∀ (a : Word) (imm16 : Imm),
    ((branchTarget a imm16).toNat : Int) = ((a.toNat : Int) + 4 + 4 * signed16 imm16) % 2 ^ 32) ∧
  (∀ a : Word, branchTarget a 0xFFFF#16 = a ∧ branchTarget a 0x0000#16 = a + 4#32 ∧
    branchTarget a 0x7FFF#16 = a + 131072#32 ∧ branchTarget a 0x8000#16 = a - 131068#32) ∧
  branchTarget 0xFFFFFFFC#32 0#16 = 0#32 ∧ branchTarget 0#32 0xFFFE#16 = 0xFFFFFFFC#32 ∧
  (∀ (s : State) (p : InPorts) (rest : List InPorts), Presents s p rest →
    p.wordIn.extractLsb' 26 6 = 0x04#6 ∨ p.wordIn.extractLsb' 26 6 = 0x05#6 →
    ∃ t r, step s = .next t ∧ t.out = some (.ok r) ∧
      r.target = some (branchTarget (addressOf s p) (p.wordIn.extractLsb' 0 16)))

/-- The byte offset of a branch: four times the signed immediate, in range, a multiple of 4. (R69; R69 is the spec's decision D7) -/
def Obligations.BranchOffsetRange : Prop :=
  (∀ imm16 : Imm, off32 imm16 = imm16.signExtend 32 <<< 2 ∧ (off32 imm16).toInt = 4 * signed16 imm16 ∧
    -131072 ≤ (off32 imm16).toInt ∧ (off32 imm16).toInt ≤ 131068 ∧ (off32 imm16).toNat % 4 = 0) ∧
  (∀ (a : Word) (imm16 : Imm), branchTarget a imm16 = (a + 4#32) + off32 imm16)

/-- dec is the shortest decimal numeral. (R80; R80 is the spec's decision D12) -/
def Obligations.DecIsShortestDecimal : Prop :=
  (∀ n : Nat, IsShortestNumeral 10 decimalChars n (dec n)) ∧ dec 0 = "0".toList

/-- sdec: a minus sign for negative values only, no plus sign. (R81; R81 is the spec's decision D12) -/
def Obligations.SdecSpelling : Prop :=
  (∀ v : Int, -32768 ≤ v → v ≤ 32767 →
    (v < 0 → sdec v = "-".toList ++ dec v.natAbs) ∧ (0 ≤ v → sdec v = dec v.natAbs)) ∧
  sdec 1234 = "1234".toList ∧ sdec (-1234) = "-1234".toList ∧ sdec (-32768) = "-32768".toList ∧ sdec 0 = "0".toList

/-- hexL is the shortest lowercase hexadecimal numeral. (R82; R82 is the spec's decision D11) -/
def Obligations.HexLowerIsShortest : Prop :=
  (∀ x : Word, IsShortestNumeral 16 lowerHexChars x.toNat (hexL x)) ∧ hexL 0#32 = "0".toList ∧
  hexL 0x7A060#32 = "7a060".toList ∧
  (∀ (s t : State) (r : Result), step s = .next t → t.out = some r → t.outPorts.addrText = some (hexL r.addr))

/-- hexU is hexL in uppercase, and denotes the same value. (R83; R83 is the spec's decision D11) -/
def Obligations.HexUpperDenotesTarget : Prop :=
  (∀ x : Word, IsShortestNumeral 16 upperHexChars x.toNat (hexU x) ∧ (hexU x).length = (hexL x).length ∧
    ∀ (k : Nat) (c : Char), (hexL x)[k]? = some c → (hexU x)[k]? = some c.toUpper) ∧
  hexU 0x7A094#32 = "7A094".toList ∧ hexU 0xFFFFFFFC#32 = "FFFFFFFC".toList ∧ hexU 0#32 = "0".toList

/-- Register names round-trip: R89, which the spec marks as derived from R84 and R86; parseReg is the model's own inverse of reg. (30_encoding.md) -/
def Obligations.RegisterNamesRoundTrip : Prop :=
  ∀ naming : Naming, (∀ n : RegIndex, parseReg naming (reg naming n) = some n) ∧
    ∀ n m : RegIndex, reg naming n = reg naming m → n = m

/-- The 32 register names in each mode. (30_encoding.md) -/
def Obligations.RegisterNamesAsTabled : Prop :=
  (List.range 32).map (fun n => reg .numeric (BitVec.ofNat 5 n)) = (List.range 32).map (fun n => "$".toList ++ dec n) ∧
  (List.range 32).map (fun n => reg .abi (BitVec.ofNat 5 n)) =
    (["$zero", "$at", "$v0", "$v1", "$a0", "$a1", "$a2", "$a3"] ++ ["$t0", "$t1", "$t2", "$t3", "$t4", "$t5", "$t6", "$t7"] ++
     ["$s0", "$s1", "$s2", "$s3", "$s4", "$s5", "$s6", "$s7"] ++
     ["$t8", "$t9", "$k0", "$k1", "$gp", "$sp", "$fp", "$ra"]).map String.toList

/-- Every rendered string uses only the repertoire of R85. (R85; R85 is the spec's decision D22) -/
def Obligations.TextStaysInRepertoire : Prop :=
  ∀ (s t : State), step s = .next t →
    (∀ text, t.outPorts.text = some text → ∀ c ∈ text, c ∈ repertoire ∧ c.toNat < 128 ∧ c ≠ '\n' ∧ c ≠ '\r') ∧
    (∀ text, t.outPorts.addrText = some text → ∀ c ∈ text, c ∈ repertoire ∧ c.toNat < 128 ∧ c ≠ '\n' ∧ c ≠ '\r')

/-- What an Ok result holds. (R103) -/
def Obligations.OkRecordContents : Prop :=
  ∀ (s : State) (p : InPorts) (rest : List InPorts), Presents s p rest → (∃ i, decodeWord s.roms p.wordIn = .instr i) →
    ∃ t r, step s = .next t ∧ t.out = some (.ok r) ∧ r.addr = addressOf s p ∧ r.word = p.wordIn ∧
      (r.fmt = .rFormat → r.fields = .r (decodeR p.wordIn)) ∧ (r.fmt = .iFormat → r.fields = .i (decodeI p.wordIn)) ∧
      (r.target.isSome = true ↔ r.mnem = .beq ∨ r.mnem = .bne) ∧
      (∃ ops, operandsFields ops = r.fields ∧ operandsTarget ops = r.target ∧ operandsClass ops = classOf r.mnem ∧
        r.text = render s.cfg.naming r.mnem ops) ∧
      t.outPorts.ok = some true ∧ t.outPorts.addrText = some (hexL r.addr)

/-- An Err result produces no partial output. (R104; R104 is the spec's decision D19) -/
def Obligations.ErrPortsCarryNoDecode : Prop :=
  ∀ (s : State) (p : InPorts) (rest : List InPorts) (kind : ErrKind) (code : Code), Presents s p rest →
    decodeWord s.roms p.wordIn = .unsupported kind code →
    ∃ t, step s = .next t ∧
      t.out = some (.err { addr := addressOf s p, word := p.wordIn, kind := kind, code := code }) ∧
      t.outPorts =
        { outValid := true, ok := some false, errKind := some (errKindBit kind), errCode := some code,
          curAddr := some (addressOf s p), wordOut := some p.wordIn, fmt := none, mnem := none, opcode := none, rs := none,
          rt := none, rd := none, funct := none, imm := none, hasTarget := none, target := none, text := none,
          addrText := some (hexL (addressOf s p)), halted := some s.cfg.strict }

/-- Which ports carry a value after an Ok result, and which value. (10_state.md, 40_decode_datapath.md) -/
def Obligations.OkPortsValidWhen : Prop :=
  ∀ (s : State) (p : InPorts) (rest : List InPorts) (i : Instr), Presents s p rest → decodeWord s.roms p.wordIn = .instr i →
    ∃ t r, step s = .next t ∧ t.out = some (.ok r) ∧ t.outPorts.outValid = true ∧ t.outPorts.ok = some true ∧
      t.outPorts.errKind = none ∧ t.outPorts.errCode = none ∧
      t.outPorts.curAddr = some (addressOf s p) ∧ t.outPorts.wordOut = some p.wordIn ∧
      t.outPorts.mnem = some (mnemId i.mnem) ∧ t.outPorts.opcode = some (p.wordIn.extractLsb' 26 6) ∧
      t.outPorts.rs = some (p.wordIn.extractLsb' 21 5) ∧ t.outPorts.rt = some (p.wordIn.extractLsb' 16 5) ∧
      (p.wordIn.extractLsb' 26 6 = 0#6 → t.outPorts.fmt = some 0#1 ∧ t.outPorts.rd = some (p.wordIn.extractLsb' 11 5) ∧
        t.outPorts.funct = some (p.wordIn.extractLsb' 0 6) ∧ t.outPorts.imm = none) ∧
      (p.wordIn.extractLsb' 26 6 ≠ 0#6 → t.outPorts.fmt = some 1#1 ∧ t.outPorts.rd = none ∧ t.outPorts.funct = none ∧
        t.outPorts.imm = some (p.wordIn.extractLsb' 0 16)) ∧
      t.outPorts.hasTarget = some (decide (i.mnem = .beq) || decide (i.mnem = .bne)) ∧
      (i.mnem = .beq ∨ i.mnem = .bne →
        t.outPorts.target = some ((addressOf s p + 4#32) + (p.wordIn.extractLsb' 0 16).signExtend 32 <<< 2)) ∧
      (i.mnem ≠ .beq ∧ i.mnem ≠ .bne → t.outPorts.target = none) ∧
      t.outPorts.text = some r.text ∧ t.outPorts.addrText = some (hexL (addressOf s p)) ∧ t.outPorts.halted = some false

/-- The result of a step is a function of the word, CUR_ADDR and REG_NAMING alone. (R167; R167 is the spec's decision D1) -/
def Obligations.ResultDependsOnWordAddressNaming : Prop :=
  ∀ (s s' : State) (p p' : InPorts) (rest rest' : List InPorts), Presents s p rest → Presents s' p' rest' →
    p.wordIn = p'.wordIn → addressOf s p = addressOf s' p' → s.cfg.naming = s'.cfg.naming →
    ∃ t t' r, step s = .next t ∧ step s' = .next t' ∧ t.out = some r ∧ t'.out = some r

/-- With the sequencer off, SEQ_ADDR is never read. (60_exceptions.md, 10_state.md) -/
def Obligations.SeqAddrUnreadWhenOff : Prop :=
  ∀ (s : State) (p : InPorts) (rest : List InPorts) (a : Word), Presents s p rest → s.cfg.seqEn = false →
    ∃ t, step s = .next t ∧ t.seqAddr = s.seqAddr ∧ step { s with seqAddr := a } = .next { t with seqAddr := a }

/-- No step reads the outputs or the results of an earlier one. (10_state.md, 70_reset_and_hazards.md) -/
def Obligations.EarlierResultsAreNotReadBack : Prop :=
  ∀ (s : State) (o : Option Result) (rs : List Result),
    (∀ f, step s = .fault f ↔ step { s with out := o, results := rs } = .fault f) ∧
    (∀ t, step s = .next t → ∃ t', step { s with out := o, results := rs } = .next t' ∧
      t'.seqAddr = t.seqAddr ∧ t'.halted = t.halted ∧ t'.cfg = t.cfg ∧ t'.roms = t.roms ∧ t'.inputs = t.inputs ∧ t'.out = t.out)

/-- Every step keeps the invariant of a run. (10_state.md, 40_decode_datapath.md, 60_exceptions.md, 70_reset_and_hazards.md) -/
def Obligations.RunInvariantKeptByEveryStep : Prop :=
  ∀ s t : State, RunInv s → step s = .next t → RunInv t

/-- The reset state of every configuration meets the invariant of a run. (10_state.md, 70_reset_and_hazards.md) -/
def Obligations.RunInvariantAtReset : Prop :=
  (∀ c : Config, RunInv (State.resetWith c)) ∧ RunInv State.reset
end

