-- ==== Sys2Proof/Laws/Decode.lean ====
section
/-! SUPPORT. What the ROMs hold at every index, what the resolver answers, and the fields of an encoded word. -/

namespace Sys2Proof

/-- R_ROM, index by index (R95, R97). -/
theorem resolve_rRom (k : Code) :
    resolve rRomContents k =
      if k = 0x20#6 then some .add else if k = 0x22#6 then some .sub else if k = 0x24#6 then some .and
      else if k = 0x25#6 then some .or else if k = 0x2A#6 then some .slt else none := by
  revert k; decide

/-- I_ROM, index by index (R96, R97). -/
theorem resolve_iRom (k : Code) :
    resolve iRomContents k =
      if k = 0x04#6 then some .beq else if k = 0x05#6 then some .bne else if k = 0x23#6 then some .lw
      else if k = 0x2B#6 then some .sw else none := by
  revert k; decide

@[simp] theorem mnemOfId_mnemId (m : Mnem) : mnemOfId (mnemId m) = some m := by
  cases m <;> rfl

/-! The fields of an encoded word (R62, R64). -/

@[simp] theorem opcodeOf_encodeR (rs rt rd : RegIndex) (x : BitVec 5) (f : Code) : opcodeOf (encodeR rs rt rd x f) = 0#6 := by
  ext k hk
  simp only [opcodeOf, encodeR, placeField]
  interval_cases k <;> simp

@[simp] theorem rsOf_encodeR (rs rt rd : RegIndex) (x : BitVec 5) (f : Code) : rsOf (encodeR rs rt rd x f) = rs := by
  ext k hk
  simp only [rsOf, encodeR, placeField]
  interval_cases k <;> simp

@[simp] theorem rtOf_encodeR (rs rt rd : RegIndex) (x : BitVec 5) (f : Code) : rtOf (encodeR rs rt rd x f) = rt := by
  ext k hk
  simp only [rtOf, encodeR, placeField]
  interval_cases k <;> simp

@[simp] theorem rdOf_encodeR (rs rt rd : RegIndex) (x : BitVec 5) (f : Code) : rdOf (encodeR rs rt rd x f) = rd := by
  ext k hk
  simp only [rdOf, encodeR, placeField]
  interval_cases k <;> simp

@[simp] theorem ignoredOf_encodeR (rs rt rd : RegIndex) (x : BitVec 5) (f : Code) : ignoredOf (encodeR rs rt rd x f) = x := by
  ext k hk
  simp only [ignoredOf, encodeR, placeField]
  interval_cases k <;> simp

@[simp] theorem functOf_encodeR (rs rt rd : RegIndex) (x : BitVec 5) (f : Code) : functOf (encodeR rs rt rd x f) = f := by
  ext k hk
  simp only [functOf, encodeR, placeField]
  interval_cases k <;> simp

@[simp] theorem opcodeOf_encodeI (op : Code) (rs rt : RegIndex) (imm : Imm) : opcodeOf (encodeI op rs rt imm) = op := by
  ext k hk
  simp only [opcodeOf, encodeI, placeField]
  interval_cases k <;> simp

@[simp] theorem rsOf_encodeI (op : Code) (rs rt : RegIndex) (imm : Imm) : rsOf (encodeI op rs rt imm) = rs := by
  ext k hk
  simp only [rsOf, encodeI, placeField]
  interval_cases k <;> simp

@[simp] theorem rtOf_encodeI (op : Code) (rs rt : RegIndex) (imm : Imm) : rtOf (encodeI op rs rt imm) = rt := by
  ext k hk
  simp only [rtOf, encodeI, placeField]
  interval_cases k <;> simp

@[simp] theorem immOf_encodeI (op : Code) (rs rt : RegIndex) (imm : Imm) : immOf (encodeI op rs rt imm) = imm := by
  ext k hk
  simp only [immOf, encodeI, placeField]
  interval_cases k <;> simp

/-! A word put together again from its fields. -/

theorem encodeR_fields (w : Word) (h : opcodeOf w = 0#6) :
    encodeR (rsOf w) (rtOf w) (rdOf w) (ignoredOf w) (functOf w) = w := by
  have hop : ∀ k, k < 6 → w.getLsbD (26 + k) = false := fun k hk => by
    have := congrArg (fun v : Code => v.getLsbD k) h
    simpa [opcodeOf, hk] using this
  have h0 := hop 0 (by omega); have h1 := hop 1 (by omega); have h2 := hop 2 (by omega)
  have h3 := hop 3 (by omega); have h4 := hop 4 (by omega); have h5 := hop 5 (by omega)
  ext k hk
  simp only [rsOf, rtOf, rdOf, ignoredOf, functOf, encodeR, placeField]
  interval_cases k <;> simp_all

theorem encodeI_fields (w : Word) : encodeI (opcodeOf w) (rsOf w) (rtOf w) (immOf w) = w := by
  ext k hk
  simp only [opcodeOf, rsOf, rtOf, immOf, encodeI, placeField]
  interval_cases k <;> simp

/-! Signed immediates (R10, R67). -/

@[simp] theorem imm16Of_signed16 (v : Imm) : imm16Of (signed16 v) = v := by
  simp [imm16Of, signed16]

theorem signed16_imm16Of {simm : Int} (h : simmInRange simm = true) : signed16 (imm16Of simm) = simm := by
  simp [simmInRange] at h
  simp only [signed16, imm16Of, BitVec.toInt_ofInt]
  exact Int.bmod_eq_of_le (by omega) (by omega)

theorem simmInRange_signed16 (v : Imm) : simmInRange (signed16 v) = true := by
  have h1 := BitVec.le_toInt v
  have h2 := BitVec.toInt_lt (x := v)
  norm_num at h1 h2
  unfold simmInRange signed16
  rw [Bool.and_eq_true, decide_eq_true_iff, decide_eq_true_iff]
  exact ⟨h1, by omega⟩

/-! What the decoder answers, by format. -/

/-- An R-format word decodes by its function code alone (R91, R95, R141). -/
theorem decodeWord_of_opcode_zero (roms : Roms) (w : Word) (h : opcodeOf w = 0#6) :
    decodeWord roms w =
      if functOf w = 0x20#6 then .instr (.add (rsOf w) (rtOf w) (rdOf w) (ignoredOf w))
      else if functOf w = 0x22#6 then .instr (.sub (rsOf w) (rtOf w) (rdOf w) (ignoredOf w))
      else if functOf w = 0x24#6 then .instr (.and (rsOf w) (rtOf w) (rdOf w) (ignoredOf w))
      else if functOf w = 0x25#6 then .instr (.or (rsOf w) (rtOf w) (rdOf w) (ignoredOf w))
      else if functOf w = 0x2A#6 then .instr (.slt (rsOf w) (rtOf w) (rdOf w) (ignoredOf w))
      else .unsupported .funct (functOf w) := by
  simp only [decodeWord, classify, h, if_true, roms.r_fixed, resolve_rRom]
  repeat' split
  all_goals simp_all [rInstr, decodeR]

/-- An I-format word decodes by its opcode alone (R91, R96, R141). -/
theorem decodeWord_of_opcode_nonzero (roms : Roms) (w : Word) (h : opcodeOf w ≠ 0#6) :
    decodeWord roms w =
      if opcodeOf w = 0x04#6 then .instr (.beq (rsOf w) (rtOf w) (signed16 (immOf w)))
      else if opcodeOf w = 0x05#6 then .instr (.bne (rsOf w) (rtOf w) (signed16 (immOf w)))
      else if opcodeOf w = 0x23#6 then .instr (.lw (rsOf w) (rtOf w) (signed16 (immOf w)))
      else if opcodeOf w = 0x2B#6 then .instr (.sw (rsOf w) (rtOf w) (signed16 (immOf w)))
      else .unsupported .opcode (opcodeOf w) := by
  simp only [decodeWord, classify, h, if_false, roms.i_fixed, resolve_iRom]
  repeat' split
  all_goals simp_all [iInstr, decodeI]

/-! The opcode table's masks and matches, as fields. -/

/-- A word that matches an I-format row has the row's opcode (R64, R71). -/
theorem opcodeOf_of_mask {w : Word} (op : Code) (h : w &&& 0xFC000000#32 = placeField op 26) : opcodeOf w = op := by
  ext k hk
  have := congrArg (fun v : Word => v.getLsbD (26 + k)) h
  simp only [opcodeOf]
  simp only [placeField] at this
  interval_cases k <;> simpa using this

/-- A word that matches an R-format row has opcode 0 and the row's function code (R62, R70). -/
theorem fields_of_mask {w : Word} (f : Code) (h : w &&& 0xFC00003F#32 = placeField f 0) : opcodeOf w = 0#6 ∧ functOf w = f := by
  constructor
  · ext k hk
    have := congrArg (fun v : Word => v.getLsbD (26 + k)) h
    simp only [opcodeOf]
    simp only [placeField] at this
    interval_cases k <;> simpa using this
  · ext k hk
    have := congrArg (fun v : Word => v.getLsbD k) h
    simp only [functOf]
    simp only [placeField] at this
    interval_cases k <;> simpa using this

end Sys2Proof
end

