-- ==== Sys2Proof/Laws/State.lean ====
section
/-! SUPPORT. One lemma per field of the state per update, and the fields of the two reset states. -/

namespace Sys2Proof.Machine

/-- The state's ROMs hold the built contents: the type admits nothing else (R33). -/
@[simp] theorem State.roms_eq (s : State) : s.roms = builtRoms := by
  obtain ⟨_, _, _, ⟨r, i, hr, hi⟩, _, _, _⟩ := s
  subst hr hi
  rfl

@[simp] theorem consume_seqAddr (s : State) (rest : List InPorts) (r : Result) : (s.consume rest r).seqAddr = s.nextSeqAddr := rfl
@[simp] theorem consume_halted (s : State) (rest : List InPorts) (r : Result) : (s.consume rest r).halted = haltedAfter s r := rfl
@[simp] theorem consume_cfg (s : State) (rest : List InPorts) (r : Result) : (s.consume rest r).cfg = s.cfg := rfl
@[simp] theorem consume_inputs (s : State) (rest : List InPorts) (r : Result) : (s.consume rest r).inputs = rest := rfl
@[simp] theorem consume_out (s : State) (rest : List InPorts) (r : Result) : (s.consume rest r).out = some r := rfl
@[simp] theorem consume_results (s : State) (rest : List InPorts) (r : Result) : (s.consume rest r).results = s.results ++ [r] := rfl

@[simp] theorem captureReset_seqAddr (p : InPorts) (rest : List InPorts) (s : State) : (captureReset p rest s).seqAddr = p.cfgBase := rfl
@[simp] theorem captureReset_halted (p : InPorts) (rest : List InPorts) (s : State) : (captureReset p rest s).halted = false := rfl
@[simp] theorem captureReset_cfg (p : InPorts) (rest : List InPorts) (s : State) : (captureReset p rest s).cfg = p.cfgIn := rfl
@[simp] theorem captureReset_inputs (p : InPorts) (rest : List InPorts) (s : State) : (captureReset p rest s).inputs = rest := rfl
@[simp] theorem captureReset_out (p : InPorts) (rest : List InPorts) (s : State) : (captureReset p rest s).out = none := rfl
@[simp] theorem captureReset_results (p : InPorts) (rest : List InPorts) (s : State) : (captureReset p rest s).results = [] := rfl
@[simp] theorem cfgIn_base (p : InPorts) : p.cfgIn.base = p.cfgBase := rfl

@[simp] theorem holdState_seqAddr (rest : List InPorts) (s : State) : (holdState rest s).seqAddr = s.seqAddr := rfl
@[simp] theorem holdState_halted (rest : List InPorts) (s : State) : (holdState rest s).halted = s.halted := rfl
@[simp] theorem holdState_cfg (rest : List InPorts) (s : State) : (holdState rest s).cfg = s.cfg := rfl
@[simp] theorem holdState_inputs (rest : List InPorts) (s : State) : (holdState rest s).inputs = rest := rfl
@[simp] theorem holdState_out (rest : List InPorts) (s : State) : (holdState rest s).out = none := rfl
@[simp] theorem holdState_results (rest : List InPorts) (s : State) : (holdState rest s).results = s.results := rfl

@[simp] theorem withFetchWord_seqAddr (s : State) (n w : Nat) : (s.withFetchWord n w).seqAddr = s.seqAddr := rfl
@[simp] theorem withFetchWord_halted (s : State) (n w : Nat) : (s.withFetchWord n w).halted = s.halted := rfl
@[simp] theorem withFetchWord_cfg (s : State) (n w : Nat) : (s.withFetchWord n w).cfg = s.cfg := rfl
@[simp] theorem withFetchWord_inputs (s : State) (n w : Nat) :
    (s.withFetchWord n w).inputs = presentFirst (tableWord n w) s.inputs := rfl

@[simp] theorem resetWith_seqAddr (c : Config) : (State.resetWith c).seqAddr = c.base := rfl
@[simp] theorem resetWith_halted (c : Config) : (State.resetWith c).halted = false := rfl
@[simp] theorem resetWith_cfg (c : Config) : (State.resetWith c).cfg = c := rfl
@[simp] theorem resetWith_results (c : Config) : (State.resetWith c).results = [] := rfl
@[simp] theorem resetWith_out (c : Config) : (State.resetWith c).out = none := rfl
@[simp] theorem resetWith_inputs (c : Config) : (State.resetWith c).inputs = [] := rfl

end Sys2Proof.Machine
end

