-- ==== Sys2Proof/Laws/Ops.lean ====
section
/-! SUPPORT. One lemma per shared operation: what it answers, and that it answers nothing else. -/

namespace Sys2Proof.Machine

/-! ### Results -/

@[simp] theorem okResult_isErr (n : Naming) (m : Mnem) (ops : Operands) (a w : Word) : (okResult n m ops a w).isErr = false := rfl
@[simp] theorem okResult_addr (n : Naming) (m : Mnem) (ops : Operands) (a w : Word) : (okResult n m ops a w).addr = a := rfl
@[simp] theorem okResult_word (n : Naming) (m : Mnem) (ops : Operands) (a w : Word) : (okResult n m ops a w).word = w := rfl
@[simp] theorem err_isErr (e : ErrRecord) : (Result.err e).isErr = true := rfl
@[simp] theorem ok_isErr (r : OkRecord) : (Result.ok r).isErr = false := rfl

/-- An `Ok` leaves HALTED unchanged (R30). -/
theorem haltedAfter_of_ok (s : State) {r : Result} (h : r.isErr = false) : haltedAfter s r = s.halted := by
  simp [haltedAfter, h]

/-- An `Err` halts a running block exactly in strict mode (R30, R146, R147). -/
theorem haltedAfter_of_err (s : State) {r : Result} (h : r.isErr = true) (hs : s.halted = false) :
    haltedAfter s r = s.cfg.strict := by
  simp [haltedAfter, h, hs]

/-! ### Sequencer -/

theorem nextSeqAddr_on {s : State} (h : s.cfg.seqEn = true) : s.nextSeqAddr = s.seqAddr + 4#32 := by simp [State.nextSeqAddr, h]
theorem nextSeqAddr_off {s : State} (h : s.cfg.seqEn = false) : s.nextSeqAddr = s.seqAddr := by simp [State.nextSeqAddr, h]

/-- CUR_ADDR written out (R23, R25, R27). -/
theorem curAddr_eq (s : State) (p : InPorts) : s.curAddr p = addressOf s p := by
  cases h : s.cfg.seqEn <;> simp [State.curAddr, addressOf, State.nextSeqAddr, h]

/-- The state after a consumed word, written out. -/
theorem consume_eq_afterWord (s : State) (rest : List InPorts) (r : Result) :
    s.consume rest r = afterWord s rest r (haltedAfter s r) := rfl

/-! ### Emitting a result -/

/-- With a word presented, the operation answers the state after it. -/
theorem emitResult_of_inputs {s : State} {p : InPorts} {rest : List InPorts} (h : s.inputs = p :: rest)
    (mk : Word → Word → Result) : emitResult mk s = .next (s.consume rest (mk (s.curAddr p) p.wordIn)) := by
  simp [emitResult, h]

/-- All that the operation can do when it answers a next state. -/
theorem emitResult_next {mk : Word → Word → Result} {s t : State} (h : emitResult mk s = .next t) :
    ∃ p rest, s.inputs = p :: rest ∧ t = s.consume rest (mk (s.curAddr p) p.wordIn) := by
  unfold emitResult at h
  split at h
  · cases h
  · next p rest hi => exact ⟨p, rest, hi, by injection h with h; exact h.symm⟩

/-- `UnsupportedEncoding` with a word presented (R145). -/
theorem takeUnsupported_of_inputs {s : State} {p : InPorts} {rest : List InPorts} (h : s.inputs = p :: rest)
    (kind : ErrKind) (code : Code) :
    takeUnsupported kind code s =
      .next (s.consume rest (.err { addr := s.curAddr p, word := p.wordIn, kind := kind, code := code })) :=
  emitResult_of_inputs h _

/-! ### The input ports -/

theorem fetch_nil {s : State} (h : s.inputs = []) : fetch s = .runOver .inputExhausted := by simp [fetch, h]

theorem fetch_reset {s : State} {p : InPorts} {rest : List InPorts} (h : s.inputs = p :: rest) (hr : p.rst = true) :
    fetch s = .reset p rest := by simp [fetch, h, hr]

theorem fetch_idle {s : State} {p : InPorts} {rest : List InPorts} (h : s.inputs = p :: rest) (hr : p.rst = false)
    (hv : p.inValid = false) : fetch s = .idle rest := by simp [fetch, h, hr, hv]

theorem fetch_halted {s : State} {p : InPorts} {rest : List InPorts} (h : s.inputs = p :: rest) (hr : p.rst = false)
    (hv : p.inValid = true) (hh : s.halted = true) : fetch s = .runOver .halted := by simp [fetch, h, hr, hv, hh]

theorem fetch_word {s : State} {p : InPorts} {rest : List InPorts} (h : Presents s p rest) : fetch s = .word p.wordIn := by
  simp [fetch, h.inputs, h.noReset, h.valid, h.running]

/-- Whenever a word is fetched, it is presented. -/
theorem fetch_eq_word {s : State} {w : Word} (h : fetch s = .word w) : ∃ p rest, Presents s p rest ∧ p.wordIn = w := by
  unfold fetch at h
  split at h
  · cases h
  · next p rest hi =>
    split at h
    · cases h
    · split at h
      · cases h
      · split at h
        · cases h
        · next h1 h2 h3 => exact ⟨p, rest, ⟨hi, by simpa using h1, by simpa using h2, by simpa using h3⟩, by injection h⟩

/-- The word that `withFetchWord` places is fetched next, unless the block is halted. -/
theorem fetch_withFetchWord (s : State) (nbits w : Nat) (h : s.halted = false) :
    fetch (s.withFetchWord nbits w) = .word (tableWord nbits w) := by
  cases hi : s.inputs <;> simp [fetch, hi, h, presentFirst, InPorts.ofWord, InPorts.present]

end Sys2Proof.Machine
end

