-- ==== Sys2Proof/Laws/PerInstr.lean ====
section
/-! SUPPORT. Statements about every instruction as syntax, one lemma per constructor. -/

namespace Sys2Proof.Laws.EncodeMatches

/-- The instruction's word matches the row of the opcode table that bears its mnemonic (30_encoding.md R70, R71). -/
def Statement (i : Instr) : Prop :=
  ∃ row ∈ opcodeTable, row.mnem = i.mnem ∧ row.matchesWord (encode i) = true

/-- An R-format word under the R-format mask is its function code. -/
theorem encodeR_mask (rs rt rd : RegIndex) (x : BitVec 5) (f : Code) :
    encodeR rs rt rd x f &&& 0xFC00003F#32 = placeField f 0 := by
  ext k hk
  simp only [encodeR, placeField]
  interval_cases k <;> simp

/-- An I-format word under the I-format mask is its opcode. -/
theorem encodeI_mask (op : Code) (rs rt : RegIndex) (imm : Imm) :
    encodeI op rs rt imm &&& 0xFC000000#32 = placeField op 26 := by
  ext k hk
  simp only [encodeI, placeField]
  interval_cases k <;> simp

theorem add (rs rt rd : RegIndex) (x : BitVec 5) : Statement (.add rs rt rd x) :=
  ⟨⟨.add, 0xFC00003F#32, 0x20#32⟩, by decide, rfl, beq_iff_eq.mpr (encodeR_mask rs rt rd x 0x20#6)⟩

theorem sub (rs rt rd : RegIndex) (x : BitVec 5) : Statement (.sub rs rt rd x) :=
  ⟨⟨.sub, 0xFC00003F#32, 0x22#32⟩, by decide, rfl, beq_iff_eq.mpr (encodeR_mask rs rt rd x 0x22#6)⟩

theorem and (rs rt rd : RegIndex) (x : BitVec 5) : Statement (.and rs rt rd x) :=
  ⟨⟨.and, 0xFC00003F#32, 0x24#32⟩, by decide, rfl, beq_iff_eq.mpr (encodeR_mask rs rt rd x 0x24#6)⟩

theorem or (rs rt rd : RegIndex) (x : BitVec 5) : Statement (.or rs rt rd x) :=
  ⟨⟨.or, 0xFC00003F#32, 0x25#32⟩, by decide, rfl, beq_iff_eq.mpr (encodeR_mask rs rt rd x 0x25#6)⟩

theorem slt (rs rt rd : RegIndex) (x : BitVec 5) : Statement (.slt rs rt rd x) :=
  ⟨⟨.slt, 0xFC00003F#32, 0x2A#32⟩, by decide, rfl, beq_iff_eq.mpr (encodeR_mask rs rt rd x 0x2A#6)⟩

theorem lw (rs rt : RegIndex) (v : Int) : Statement (.lw rs rt v) :=
  ⟨⟨.lw, 0xFC000000#32, 0x8C000000#32⟩, by decide, rfl, beq_iff_eq.mpr (encodeI_mask 0x23#6 rs rt (imm16Of v))⟩

theorem sw (rs rt : RegIndex) (v : Int) : Statement (.sw rs rt v) :=
  ⟨⟨.sw, 0xFC000000#32, 0xAC000000#32⟩, by decide, rfl, beq_iff_eq.mpr (encodeI_mask 0x2B#6 rs rt (imm16Of v))⟩

theorem beq (rs rt : RegIndex) (v : Int) : Statement (.beq rs rt v) :=
  ⟨⟨.beq, 0xFC000000#32, 0x10000000#32⟩, by decide, rfl, beq_iff_eq.mpr (encodeI_mask 0x04#6 rs rt (imm16Of v))⟩

theorem bne (rs rt : RegIndex) (v : Int) : Statement (.bne rs rt v) :=
  ⟨⟨.bne, 0xFC000000#32, 0x14000000#32⟩, by decide, rfl, beq_iff_eq.mpr (encodeI_mask 0x05#6 rs rt (imm16Of v))⟩

end Sys2Proof.Laws.EncodeMatches
end

