-- ==== Sys2Proof/Laws/Step.lean ====
section
/-! SUPPORT. What a meaning answers, what a step can do (said once), and how the decoder and the datapath agree. -/

namespace Sys2Proof.Machine

/-- The operands an instruction renders, for CUR_ADDR (R110 to R114, R120, R121, R130, R131). -/
def operandsAt : Instr → Word → Operands
  | .add rs rt rd _, _ => .arith ⟨rs, rt, rd, 0x20#6⟩
  | .sub rs rt rd _, _ => .arith ⟨rs, rt, rd, 0x22#6⟩
  | .and rs rt rd _, _ => .arith ⟨rs, rt, rd, 0x24#6⟩
  | .or rs rt rd _, _ => .arith ⟨rs, rt, rd, 0x25#6⟩
  | .slt rs rt rd _, _ => .arith ⟨rs, rt, rd, 0x2A#6⟩
  | .lw rs rt v, _ => .mem ⟨0x23#6, rs, rt, imm16Of v⟩
  | .sw rs rt v, _ => .mem ⟨0x2B#6, rs, rt, imm16Of v⟩
  | .beq rs rt v, a => .branch ⟨0x04#6, rs, rt, imm16Of v⟩ (branchTarget a (imm16Of v))
  | .bne rs rt v, a => .branch ⟨0x05#6, rs, rt, imm16Of v⟩ (branchTarget a (imm16Of v))

/-- Every meaning emits the `Ok` result of its mnemonic and operands, and does nothing else. -/
theorem exec_eq_emitOk (i : Instr) (s : State) : exec i s = emitOk i.mnem (operandsAt i) s := by
  cases i <;> rfl

/-- A meaning with a word presented answers the state after an `Ok` result. -/
theorem exec_of_inputs {s : State} {p : InPorts} {rest : List InPorts} (h : s.inputs = p :: rest) (i : Instr) :
    exec i s =
      .next (s.consume rest (okResult s.cfg.naming i.mnem (operandsAt i (s.curAddr p)) (s.curAddr p) p.wordIn)) := by
  rw [exec_eq_emitOk]
  exact emitResult_of_inputs h _

/-- The same, written out: a meaning leaves HALTED unchanged. -/
theorem exec_eq_afterWord {s : State} {p : InPorts} {rest : List InPorts} (h : s.inputs = p :: rest) (i : Instr) :
    exec i s =
      .next (afterWord s rest (okResult s.cfg.naming i.mnem (operandsAt i (addressOf s p)) (addressOf s p) p.wordIn) s.halted) := by
  rw [exec_of_inputs h, consume_eq_afterWord, haltedAfter_of_ok _ (okResult_isErr _ _ _ _ _), curAddr_eq]

/-- All that a meaning can do when it answers a next state. -/
theorem exec_next {i : Instr} {s t : State} (h : exec i s = .next t) :
    ∃ p rest, s.inputs = p :: rest ∧
      t = s.consume rest (okResult s.cfg.naming i.mnem (operandsAt i (s.curAddr p)) (s.curAddr p) p.wordIn) := by
  rw [exec_eq_emitOk] at h
  exact emitResult_next h

/-- The datapath and the decoder agree: the datapath's result is the decoded instruction's `Ok`, or the `Err` of the decoder's cause (R101). -/
theorem datapathDecode_eq (roms : Roms) (w a : Word) (n : Naming) :
    datapathDecode roms w a n =
      match decodeWord roms w with
      | .instr i => okResult n i.mnem (operandsAt i a) a w
      | .unsupported kind code => .err { addr := a, word := w, kind := kind, code := code } := by
  by_cases h : opcodeOf w = 0#6
  · rw [decodeWord_of_opcode_zero roms w h]
    simp only [datapathDecode, h, if_true, decodeR, roms.r_fixed, resolve_rRom]
    by_cases h20 : functOf w = 0x20#6
    · simp [h20, operandsAt, Instr.mnem]
    by_cases h22 : functOf w = 0x22#6
    · simp [h22, operandsAt, Instr.mnem]
    by_cases h24 : functOf w = 0x24#6
    · simp [h24, operandsAt, Instr.mnem]
    by_cases h25 : functOf w = 0x25#6
    · simp [h25, operandsAt, Instr.mnem]
    by_cases h2A : functOf w = 0x2A#6
    · simp [h2A, operandsAt, Instr.mnem]
    simp [h20, h22, h24, h25, h2A]
  · rw [decodeWord_of_opcode_nonzero roms w h]
    simp only [datapathDecode, h, if_false, decodeI, roms.i_fixed, resolve_iRom]
    by_cases h4 : opcodeOf w = 0x04#6
    · simp [h4, operandsAt, Instr.mnem, classOf, branchTarget, off32]
    by_cases h5 : opcodeOf w = 0x05#6
    · simp [h5, operandsAt, Instr.mnem, classOf, branchTarget, off32]
    by_cases h23 : opcodeOf w = 0x23#6
    · simp [h23, operandsAt, Instr.mnem, classOf]
    by_cases h2B : opcodeOf w = 0x2B#6
    · simp [h2B, operandsAt, Instr.mnem, classOf]
    simp [h4, h5, h23, h2B]

/-- A step on a presented word answers the state after the datapath's result (R101, R102). -/
theorem step_of_presents {s : State} {p : InPorts} {rest : List InPorts} (h : Presents s p rest) :
    step s = .next (s.consume rest (datapathDecode s.roms p.wordIn (s.curAddr p) s.cfg.naming)) := by
  rw [datapathDecode_eq, step, fetch_word h]
  dsimp only
  cases decodeWord s.roms p.wordIn with
  | instr i => exact exec_of_inputs h.inputs i
  | unsupported kind code => exact takeUnsupported_of_inputs h.inputs kind code

/-- A step on a presented word that decodes is the instruction's meaning. -/
theorem step_of_instr {s : State} {p : InPorts} {rest : List InPorts} {i : Instr} (h : Presents s p rest)
    (hd : decodeWord s.roms p.wordIn = .instr i) : step s = exec i s := by
  rw [step, fetch_word h]
  dsimp only
  rw [hd]

/-- A step on a presented word that does not decode raises `UnsupportedEncoding` (R145). -/
theorem step_of_unsupported {s : State} {p : InPorts} {rest : List InPorts} {kind : ErrKind} {code : Code}
    (h : Presents s p rest) (hd : decodeWord s.roms p.wordIn = .unsupported kind code) :
    step s =
      .next (afterWord s rest (.err { addr := addressOf s p, word := p.wordIn, kind := kind, code := code }) s.cfg.strict) := by
  rw [step, fetch_word h]
  dsimp only
  rw [hd]
  dsimp only
  rw [takeUnsupported_of_inputs h.inputs, consume_eq_afterWord, haltedAfter_of_err _ (err_isErr _) h.running, curAddr_eq]

/-- All that a step can do when it answers a next state: a reset, a hold, or a consumed word. -/
theorem step_next {s t : State} (h : step s = .next t) :
    (∃ p rest, s.inputs = p :: rest ∧ p.rst = true ∧ t = captureReset p rest s) ∨
    (∃ p rest, s.inputs = p :: rest ∧ p.rst = false ∧ p.inValid = false ∧ t = holdState rest s) ∨
    (∃ p rest, Presents s p rest ∧
      t = s.consume rest (datapathDecode s.roms p.wordIn (s.curAddr p) s.cfg.naming)) := by
  cases hi : s.inputs with
  | nil => simp [step, fetch_nil hi] at h
  | cons p rest =>
    cases hr : p.rst with
    | true =>
      simp only [step, fetch_reset hi hr, Host.Outcome.next.injEq] at h
      exact .inl ⟨p, rest, rfl, hr, h.symm⟩
    | false =>
      cases hv : p.inValid with
      | false =>
        simp only [step, fetch_idle hi hr hv, Host.Outcome.next.injEq] at h
        exact .inr (.inl ⟨p, rest, rfl, hr, hv, h.symm⟩)
      | true =>
        cases hh : s.halted with
        | true => simp [step, fetch_halted hi hr hv hh] at h
        | false =>
          have hp : Presents s p rest := ⟨hi, hr, hv, hh⟩
          rw [step_of_presents hp, Host.Outcome.next.injEq] at h
          exact .inr (.inr ⟨p, rest, hp, h.symm⟩)

/-- A step never refuses. -/
theorem step_not_refused (s : State) (r : Refusal) : step s ≠ .refused r := by
  cases hi : s.inputs with
  | nil => simp [step, fetch_nil hi]
  | cons p rest =>
    cases hr : p.rst with
    | true => simp [step, fetch_reset hi hr]
    | false =>
      cases hv : p.inValid with
      | false => simp [step, fetch_idle hi hr hv]
      | true =>
        cases hh : s.halted with
        | true => simp [step, fetch_halted hi hr hv hh]
        | false => simp [step_of_presents (⟨hi, hr, hv, hh⟩ : Presents s p rest)]

end Sys2Proof.Machine
end

