-- ==== Sys2Proof/Laws/Run.lean ====
section
/-! SUPPORT. Runs of the machine, one step at a time. -/

namespace Sys2Proof.Machine

@[simp] theorem core_step (s : State) : Sys2Proof.core.step s = step s := rfl

theorem run_zero (s : State) : Host.Core.run Sys2Proof.core 0 s = .next s := rfl

/-- A run goes on from a step that answers a next state. -/
theorem run_of_next {s t : State} (h : step s = .next t) (n : Nat) :
    Host.Core.run Sys2Proof.core (n + 1) s = Host.Core.run Sys2Proof.core n t := by
  have e := Host.Core.run.eq_2 Sys2Proof.core s n
  rw [core_step, h] at e
  exact e

/-- A run stops at a step that faults. -/
theorem run_of_fault {s : State} {f : Fault} (h : step s = .fault f) (n : Nat) :
    Host.Core.run Sys2Proof.core (n + 1) s = .fault f := by
  have e := Host.Core.run.eq_2 Sys2Proof.core s n
  rw [core_step, h] at e
  exact e

/-- A run of one step or more that answers a next state took a step that did. -/
theorem run_succ_next {s t : State} {n : Nat} (h : Host.Core.run Sys2Proof.core (n + 1) s = .next t) :
    ∃ u, step s = .next u ∧ Host.Core.run Sys2Proof.core n u = .next t := by
  cases hs : step s with
  | next u => exact ⟨u, rfl, by rw [← run_of_next hs]; exact h⟩
  | fault f => rw [run_of_fault hs] at h; cases h
  | refused r => exact absurd hs (step_not_refused s r)

end Sys2Proof.Machine
end

