-- ==== Sys2Proof/Laws/Text.lean ====
section
/-! SUPPORT. The rendered text of each operand class (30_encoding.md R75 to R77), and the equations of the numeral functions. -/

namespace Sys2Proof.Machine

/-- ARITH layout (R75). -/
theorem render_arith (n : Naming) (m : Mnem) (d : DecodedR) :
    render n m (.arith d) = mnemText m ++ ' ' :: (reg n d.rd ++ ", ".toList ++ reg n d.rs ++ ", ".toList ++ reg n d.rt) := rfl

/-- MEM layout (R76). -/
theorem render_mem (n : Naming) (m : Mnem) (d : DecodedI) :
    render n m (.mem d) =
      mnemText m ++ ' ' :: (reg n d.rt ++ ", ".toList ++ sdec (signed16 d.imm16) ++ "(".toList ++ reg n d.rs ++ ")".toList) := by
  change mnemText m ++ ' ' :: (reg n d.rt ++ _ ++ sdec _ ++ [] ++ '(' :: (reg n d.rs ++ [')'])) = _
  rw [List.append_nil, show "(".toList = ['('] from rfl, show ")".toList = [')'] from rfl]
  simp only [List.append_assoc, List.cons_append, List.nil_append]

/-- BRANCH layout (R77). -/
theorem render_branch (n : Naming) (m : Mnem) (d : DecodedI) (t : Word) :
    render n m (.branch d t) =
      mnemText m ++ ' ' :: (reg n d.rs ++ ", ".toList ++ reg n d.rt ++ ", address ".toList ++ hexU t) := by
  change mnemText m ++ ' ' :: (reg n d.rs ++ _ ++ reg n d.rt ++ ", ".toList ++ ("address ".toList ++ hexU t)) = _
  rw [show ", address ".toList = ", ".toList ++ "address ".toList from rfl]
  simp only [List.append_assoc]

theorem digitsFuel_succ (base fuel n : Nat) :
    digitsFuel base (fuel + 1) n = if n < base then [n] else digitsFuel base fuel (n / base) ++ [n % base] := rfl

/-- More fuel than the value changes nothing: the digit list satisfies its own recursion (R80, R82). -/
theorem digitsFuel_eq {base : Nat} (hb : 2 ≤ base) : ∀ (fuel fuel' n : Nat), n < fuel → n < fuel' →
    digitsFuel base fuel n = digitsFuel base fuel' n := by
  intro fuel
  induction fuel with
  | zero => intro _ _ h; omega
  | succ fuel ih =>
    intro fuel' n h h'
    cases fuel' with
    | zero => omega
    | succ fuel' =>
      rw [digitsFuel_succ, digitsFuel_succ]
      split
      · rfl
      · next hn =>
        have hlt : n / base < n := Nat.div_lt_self (by omega) (by omega)
        rw [ih fuel' (n / base) (by omega) (by omega)]

theorem digits_of_lt {base n : Nat} (h : n < base) : digits base n = [n] := by
  simp [digits, digitsFuel_succ, h]

theorem digits_of_ge {base n : Nat} (hb : 2 ≤ base) (h : base ≤ n) : digits base n = digits base (n / base) ++ [n % base] := by
  have hlt : n / base < n := Nat.div_lt_self (by omega) (by omega)
  rw [digits, digitsFuel_succ, if_neg (by omega), digitsFuel_eq hb n (n / base + 1) _ hlt (by omega), digits]

/-- Every digit is below the base. -/
theorem digits_lt {base : Nat} (hb : 2 ≤ base) (n : Nat) : ∀ d ∈ digits base n, d < base := by
  induction n using Nat.strongRecOn with
  | ind n ih =>
    intro d hd
    by_cases h : n < base
    · rw [digits_of_lt h] at hd
      simp only [List.mem_singleton] at hd
      omega
    · rw [digits_of_ge hb (by omega)] at hd
      rcases List.mem_append.mp hd with hd | hd
      · exact ih (n / base) (Nat.div_lt_self (by omega) (by omega)) d hd
      · simp only [List.mem_singleton] at hd
        exact hd ▸ Nat.mod_lt _ (by omega)

end Sys2Proof.Machine
end

