-- ==== Sys2Proof/Tests/Slice0.lean ====
section
/-! SUPPORT. Tests: words and results written out from the spec (95_test_vectors.md and the rules cited), ill-formed terms that
`wellFormed` refuses, and a witness for the hypotheses of every statement that has some. -/

namespace Sys2Proof.Tests

open Sys2Proof.Machine

/-! ### Helpers -/

/-- Input ports that present a word with an address. -/
def ports (w a : Word) : InPorts := { InPorts.ofWord w with addrIn := a }

/-- Input ports that ask for a reset with a configuration. -/
def resetPorts (base : Word) (seqEn naming strict : Bool) : InPorts :=
  { InPorts.ofWord 0#32 with rst := true, inValid := false, cfgBase := base, cfgSeqEn := seqEn, cfgRegNaming := naming,
                             cfgStrict := strict }

/-- Input ports that present nothing. -/
def idlePorts : InPorts := { InPorts.ofWord 0#32 with inValid := false }

/-- A configuration with external addresses. -/
def external (naming : Naming) : Config := { base := 0x0007A05C#32, seqEn := false, naming := naming, strict := false }

/-- A configuration with the sequencer on. -/
def sequenced (base : Word) (strict : Bool) : Config := { base := base, seqEn := true, naming := .numeric, strict := strict }

/-- The state after reset with input to come. -/
def presenting (c : Config) (ps : List InPorts) : State := { State.resetWith c with inputs := ps }

/-- A halted block with input to come. -/
def haltedWith (ps : List InPorts) : State := { presenting (sequenced 0#32 true) ps with halted := true }

/-- The result a step emits, if it answers a next state. -/
def emitted : Host.Outcome State Fault Refusal → Option Result
  | .next s => s.out
  | .fault _ => none
  | .refused _ => none

/-- SEQ_ADDR and HALTED after a step, if it answers a next state. -/
def endState : Host.Outcome State Fault Refusal → Option (Word × Bool)
  | .next s => some (s.seqAddr, s.halted)
  | .fault _ => none
  | .refused _ => none

/-- The output ports after a step, if it answers a next state. -/
def portsAfter : Host.Outcome State Fault Refusal → Option OutPorts
  | .next s => some s.outPorts
  | .fault _ => none
  | .refused _ => none

/-- The text of the word `w` presented at the external address `a`. -/
def textAt (naming : Naming) (w a : Word) : Option Text :=
  (emitted (step (presenting (external naming) [ports w a]))).bind Result.text?

/-! ### WellFormed: a signed immediate in range (R67) -/

theorem test_wf_lw_above : (Instr.lw 9 17 32768).wellFormed = false := by decide
theorem test_wf_lw_below : (Instr.lw 9 17 (-32769)).wellFormed = false := by decide
theorem test_wf_sw_above : (Instr.sw 9 17 32768).wellFormed = false := by decide
theorem test_wf_sw_below : (Instr.sw 9 17 (-32769)).wellFormed = false := by decide
theorem test_wf_beq_above : (Instr.beq 9 17 32768).wellFormed = false := by decide
theorem test_wf_beq_below : (Instr.beq 9 17 (-32769)).wellFormed = false := by decide
theorem test_wf_bne_above : (Instr.bne 9 17 32768).wellFormed = false := by decide
theorem test_wf_bne_below : (Instr.bne 9 17 (-32769)).wellFormed = false := by decide
theorem test_wf_bounds : (Instr.lw 9 17 32767).wellFormed = true ∧ (Instr.bne 9 17 (-32768)).wellFormed = true := by decide

/-! ### Decoding: words written out bit by bit from R62 and R64 (fields of 95_test_vectors.md) -/

/-- 000000 01001 11001 10001 00000 100000 (E1). -/
theorem test_decode_add : decodeWord builtRoms 0b00000001001110011000100000100000#32 = .instr (.add 9 25 17 0) := by decide
/-- 000000 00001 00010 00011 11111 100010 (0x00221FE2). -/
theorem test_decode_sub : decodeWord builtRoms 0b00000000001000100001111111100010#32 = .instr (.sub 1 2 3 31) := by decide
/-- 000000 00010 01001 00011 00000 100100 (0x00491824). -/
theorem test_decode_and : decodeWord builtRoms 0b00000000010010010001100000100100#32 = .instr (.and 2 9 3 0) := by decide
/-- 000000 00100 00000 00100 00000 100101 (0x00802025). -/
theorem test_decode_or : decodeWord builtRoms 0b00000000100000000010000000100101#32 = .instr (.or 4 0 4 0) := by decide
/-- 000000 01000 00000 01010 00000 101010 (0x0100502A). -/
theorem test_decode_slt : decodeWord builtRoms 0b00000001000000000101000000101010#32 = .instr (.slt 8 0 10 0) := by decide
/-- 100011 01001 10001 1111101100101110 (E3). -/
theorem test_decode_lw : decodeWord builtRoms 0b10001101001100011111101100101110#32 = .instr (.lw 9 17 (-1234)) := by decide
/-- 101011 00100 01000 1111111111111111 (0xAC88FFFF). -/
theorem test_decode_sw : decodeWord builtRoms 0b10101100100010001111111111111111#32 = .instr (.sw 4 8 (-1)) := by decide
/-- 000100 01010 00000 1111111111111011 (P1 step 5). -/
theorem test_decode_beq : decodeWord builtRoms 0b00010001010000001111111111111011#32 = .instr (.beq 10 0 (-5)) := by decide
/-- 000101 10001 01001 0000000000000000 (E4). -/
theorem test_decode_bne : decodeWord builtRoms 0b00010110001010010000000000000000#32 = .instr (.bne 17 9 0) := by decide

/-- Words next to the supported ones (95_test_vectors.md 2.5). -/
theorem test_decode_unsupported :
    decodeWord builtRoms 0x00000000#32 = .unsupported .funct 0x00#6 ∧
    decodeWord builtRoms 0x0000002B#32 = .unsupported .funct 0x2B#6 ∧
    decodeWord builtRoms 0xF8000020#32 = .unsupported .opcode 0x3E#6 ∧
    decodeWord builtRoms 0x04000000#32 = .unsupported .opcode 0x01#6 ∧
    decodeWord builtRoms 0xFFFFFFFF#32 = .unsupported .opcode 0x3F#6 := by decide

theorem test_table_rows_do_not_overlap :
    opcodeTable.Pairwise (fun r r' => ¬ (r.pattern &&& r'.mask = r'.pattern &&& r.mask)) := by decide

theorem test_decodeTableWord : decodeTableWord 32 0x8FBF8000 = some (.lw 29 31 (-32768)) ∧ decodeTableWord 32 0x3F = none := by decide

/-! ### One step of each instruction: the texts of 95_test_vectors.md 2.2 to 2.4 -/

theorem test_add_numeric : textAt .numeric 0x00221FE0#32 0#32 = some "add $3, $1, $2".toList := by decide
theorem test_add_abi : textAt .abi 0x01398820#32 0#32 = some "add $s1, $t1, $t9".toList := by decide
theorem test_sub_numeric : textAt .numeric 0x03FFF822#32 0#32 = some "sub $31, $31, $31".toList := by decide
theorem test_sub_abi : textAt .abi 0x00221FE2#32 0#32 = some "sub $v1, $at, $v0".toList := by decide
theorem test_and_numeric : textAt .numeric 0x00491824#32 0#32 = some "and $3, $2, $9".toList := by decide
theorem test_and_abi : textAt .abi 0x00000024#32 0#32 = some "and $zero, $zero, $zero".toList := by decide
theorem test_or_numeric : textAt .numeric 0x00802025#32 0#32 = some "or $4, $4, $0".toList := by decide
theorem test_or_abi : textAt .abi 0x00A52825#32 0#32 = some "or $a1, $a1, $a1".toList := by decide
theorem test_slt_numeric : textAt .numeric 0x0100502A#32 0#32 = some "slt $10, $8, $0".toList := by decide
theorem test_slt_abi : textAt .abi 0x03FFF82A#32 0#32 = some "slt $ra, $ra, $ra".toList := by decide
theorem test_lw_numeric : textAt .numeric 0x8D31FB2E#32 0#32 = some "lw $17, -1234($9)".toList := by decide
theorem test_lw_abi : textAt .abi 0x8FBF8000#32 0#32 = some "lw $ra, -32768($sp)".toList := by decide
theorem test_sw_numeric : textAt .numeric 0xAFFF7FFF#32 0#32 = some "sw $31, 32767($31)".toList := by decide
theorem test_sw_abi : textAt .abi 0xAC880004#32 0#32 = some "sw $t0, 4($a0)".toList := by decide
theorem test_beq_backward : textAt .numeric 0x10228000#32 0x0007A090#32 = some "beq $1, $2, address 5A094".toList := by decide
theorem test_beq_wrap : textAt .numeric 0x10640001#32 0xFFFFFFFC#32 = some "beq $3, $4, address 4".toList := by decide
theorem test_bne_source : textAt .numeric 0x16290000#32 0x0007A090#32 = some "bne $17, $9, address 7A094".toList := by decide
theorem test_bne_below_zero : textAt .abi 0x1400FFFE#32 0#32 = some "bne $zero, $zero, address FFFFFFFC".toList := by decide

/-! ### The step machine: the cases of 95_test_vectors.md 2.7 -/

/-- S1, on the model's reset state with the word placed. -/
theorem test_first_word_after_reset :
    (emitted (step (State.reset.withFetchWord 32 0x01398820))).map Result.addr = some 0x0007A060#32 ∧
    endState (step (State.reset.withFetchWord 32 0x01398820)) = some (0x0007A060#32, false) := by decide
/-- S2: an error advances too. -/
theorem test_err_advances :
    emitted (step (presenting (sequenced 0x0007A060#32 false) [ports 0x3F#32 0#32])) =
      some (.err { addr := 0x0007A064#32, word := 0x3F#32, kind := .funct, code := 0x3F#6 }) ∧
    endState (step (presenting (sequenced 0x0007A060#32 false) [ports 0x3F#32 0#32])) = some (0x0007A064#32, false) := by decide
/-- S3: the counter wraps; addr_text is `0`. -/
theorem test_wrap :
    (emitted (step (presenting (sequenced 0xFFFFFFFC#32 false) [ports 0x01398820#32 0#32]))).map Result.addrText =
      some "0".toList := by decide
/-- S4: sequencer off. -/
theorem test_sequencer_off :
    endState (step (presenting (external .numeric) [ports 0x16290000#32 0x0007A090#32])) = some (0x0007A05C#32, false) := by decide
/-- S5: strict halt. -/
theorem test_strict_halt :
    endState (step (presenting (sequenced 0x0007A060#32 true) [ports 0xF8000000#32 0#32])) = some (0x0007A064#32, true) := by decide
/-- S6: no step once halted. -/
theorem test_halted_has_no_step : endState (step (haltedWith [ports 0x01398820#32 0#32])) = none := by decide
/-- S7: no word. -/
theorem test_idle :
    endState (step (presenting (sequenced 0x0007A060#32 false) [idlePorts])) = some (0x0007A060#32, false) := by decide
/-- S8: reset, of a halted block. -/
theorem test_reset : endState (step (haltedWith [resetPorts 0x1000#32 true true true])) = some (0x1000#32, false) := by decide
/-- S9: strict, Ok. -/
theorem test_strict_ok :
    endState (step (presenting (sequenced 0x0007A060#32 true) [ports 0x8D3104D2#32 0#32])) = some (0x0007A064#32, false) := by decide
/-- S10: unaligned base. -/
theorem test_unaligned_base :
    (emitted (step (presenting (sequenced 0x00000001#32 false) [ports 0x10000000#32 0#32]))).bind Result.text? =
      some "beq $0, $0, address 9".toList := by decide
/-- The ports of the Err record at 0x00001000 (2.5). -/
theorem test_err_ports :
    (portsAfter (step (presenting (external .numeric) [ports 0x3F#32 0x1000#32]))).map (fun o => (o.ok, o.errKind, o.errCode)) =
      some (some false, some 1#1, some 0x3F#6) ∧
    (portsAfter (step (presenting (external .numeric) [ports 0x3F#32 0x1000#32]))).map (fun o => (o.addrText, o.text)) =
      some (some "1000".toList, none) := by decide

/-- The `target` and `text` ports of the bne of E4 (2.4; R34). -/
theorem test_branch_ports :
    (portsAfter (step (presenting (external .numeric) [ports 0x16290000#32 0x0007A090#32]))).map (fun o => (o.target, o.text)) =
      some (some 0x0007A094#32, some "bne $17, $9, address 7A094".toList) := by decide

/-- Text primitives (2.6). -/
theorem test_text_primitives :
    dec 31 = "31".toList ∧ sdec (-32768) = "-32768".toList ∧ sdec 1234 = "1234".toList ∧ hexL 0x7A08C#32 = "7a08c".toList ∧
    hexU 0x003FFFF4#32 = "3FFFF4".toList ∧ reg .numeric 25 = "$25".toList ∧ reg .abi 30 = "$fp".toList := by decide

/-! ### Witnesses: states and operands that meet the hypotheses of the statements -/

/-- A presented word is consumed: the hypothesis of most statements, for any word. -/
theorem presents_external (n : Naming) (w a : Word) (rest : List InPorts) :
    Presents (presenting (external n) (ports w a :: rest)) (ports w a) rest := ⟨rfl, rfl, rfl, rfl⟩

theorem presents_sequenced (base w : Word) (strict : Bool) (rest : List InPorts) :
    Presents (presenting (sequenced base strict) (ports w 0#32 :: rest)) (ports w 0#32) rest := ⟨rfl, rfl, rfl, rfl⟩

theorem witness_AddDecodesAndRenders :
    Presents (presenting (external .numeric) [ports 0x01398820#32 0#32]) (ports 0x01398820#32 0#32) [] ∧
    (ports 0x01398820#32 0#32).wordIn &&& 0xFC00003F#32 = 0x20#32 := ⟨presents_external .numeric _ _ _, by decide⟩
theorem witness_SubDecodesAndRenders :
    Presents (presenting (external .abi) [ports 0x03FFF822#32 0#32]) (ports 0x03FFF822#32 0#32) [] ∧
    (ports 0x03FFF822#32 0#32).wordIn &&& 0xFC00003F#32 = 0x22#32 := ⟨presents_external .abi _ _ _, by decide⟩
theorem witness_AndDecodesAndRenders :
    Presents (presenting (external .numeric) [ports 0x00221FE4#32 0#32]) (ports 0x00221FE4#32 0#32) [] ∧
    (ports 0x00221FE4#32 0#32).wordIn &&& 0xFC00003F#32 = 0x24#32 := ⟨presents_external .numeric _ _ _, by decide⟩
theorem witness_OrDecodesAndRenders :
    Presents (presenting (external .numeric) [ports 0x00000025#32 0#32]) (ports 0x00000025#32 0#32) [] ∧
    (ports 0x00000025#32 0#32).wordIn &&& 0xFC00003F#32 = 0x25#32 := ⟨presents_external .numeric _ _ _, by decide⟩
theorem witness_SltDecodesAndRenders :
    Presents (presenting (external .numeric) [ports 0x0100502A#32 0#32]) (ports 0x0100502A#32 0#32) [] ∧
    (ports 0x0100502A#32 0#32).wordIn &&& 0xFC00003F#32 = 0x2A#32 ∧ (0x03FFFFEB#32 &&& 0xFC00003F#32 = 0x2B#32) :=
  ⟨presents_external .numeric _ _ _, by decide, by decide⟩
theorem witness_LwDecodesAndRenders :
    (Instr.lw 29 31 (-32768)).wellFormed = true ∧
    Presents (presenting (external .numeric) [ports 0x8FBF8000#32 0#32]) (ports 0x8FBF8000#32 0#32) [] ∧
    (ports 0x8FBF8000#32 0#32).wordIn &&& 0xFC000000#32 = 0x8C000000#32 := ⟨by decide, presents_external .numeric _ _ _, by decide⟩
theorem witness_SwDecodesAndRenders :
    (Instr.sw 31 31 32767).wellFormed = true ∧
    Presents (presenting (external .numeric) [ports 0xAFFF7FFF#32 0#32]) (ports 0xAFFF7FFF#32 0#32) [] ∧
    (ports 0xAFFF7FFF#32 0#32).wordIn &&& 0xFC000000#32 = 0xAC000000#32 := ⟨by decide, presents_external .numeric _ _ _, by decide⟩
theorem witness_BeqDecodesAndRenders :
    (Instr.beq 1 2 (-32768)).wellFormed = true ∧
    Presents (presenting (external .numeric) [ports 0x10228000#32 0x0007A090#32]) (ports 0x10228000#32 0x0007A090#32) [] ∧
    (ports 0x10228000#32 0x0007A090#32).wordIn &&& 0xFC000000#32 = 0x10000000#32 ∧
    addressOf (presenting (external .numeric) [ports 0x10228000#32 0x0007A090#32]) (ports 0x10228000#32 0x0007A090#32) =
      0x0007A090#32 := ⟨by decide, presents_external .numeric _ _ _, by decide, by decide⟩
theorem witness_BneDecodesAndRenders :
    (Instr.bne 1 2 32767).wellFormed = true ∧
    Presents (presenting (sequenced 0x0007A08C#32 false) [ports 0x14227FFF#32 0#32]) (ports 0x14227FFF#32 0#32) [] ∧
    (ports 0x14227FFF#32 0#32).wordIn &&& 0xFC000000#32 = 0x14000000#32 ∧
    addressOf (presenting (sequenced 0x0007A08C#32 false) [ports 0x14227FFF#32 0#32]) (ports 0x14227FFF#32 0#32) =
      0x0007A090#32 := ⟨by decide, presents_sequenced _ _ _ _, by decide, by decide⟩
theorem witness_DecodingLeavesTheRestUnchanged :
    ∃ t, exec (.sw 9 17 1234) (presenting (external .numeric) [ports 0xAD3104D2#32 0#32]) = .next t := ⟨_, rfl⟩
theorem witness_StepRunsDecodedInstruction :
    Presents (presenting (external .numeric) [ports 0x01398820#32 0#32]) (ports 0x01398820#32 0#32) [] ∧
    decodeWord (presenting (external .numeric) [ports 0x01398820#32 0#32]).roms (ports 0x01398820#32 0#32).wordIn =
      .instr (.add 9 25 17 0) := ⟨presents_external .numeric _ _ _, by decide⟩
theorem witness_PlacedWordRunsNext :
    State.reset.halted = false ∧ decodeTableWord 32 0x16290000 = some (.bne 17 9 0) := by decide
theorem witness_StepFollowsBlockStep :
    (presenting (external .numeric) [idlePorts]).inputs = [idlePorts] ∧ idlePorts.rst = false ∧ idlePorts.inValid = false ∧
    (haltedWith [ports 0#32 0#32]).inputs = [ports 0#32 0#32] ∧ (ports 0#32 0#32).rst = false ∧ (ports 0#32 0#32).inValid = true :=
  ⟨rfl, rfl, rfl, rfl, rfl, rfl⟩
theorem witness_RunDecodesEveryWordInOrder :
    AllWords [ports 0x3F#32 0#32, ports 0x01398820#32 0#32] ∧
    (presenting (sequenced 0#32 false) ([ports 0x3F#32 0#32, ports 0x01398820#32 0#32] ++ [idlePorts])).halted = false ∧
    (presenting (sequenced 0#32 false) ([ports 0x3F#32 0#32, ports 0x01398820#32 0#32] ++ [idlePorts])).cfg.strict = false :=
  ⟨by simp [AllWords, ports, InPorts.ofWord], rfl, rfl⟩
theorem witness_SequencedWordsAreFourApart :
    (sequenced 0xFFFFFFF8#32 true).seqEn = true ∧ AllWords [ports 0x01398820#32 0#32] ∧
    ∃ t, Host.Core.run Sys2Proof.core 1 { State.resetWith (sequenced 0xFFFFFFF8#32 true) with inputs := [ports 0x01398820#32 0#32] } =
      .next t := ⟨rfl, by simp [AllWords, ports, InPorts.ofWord], _, rfl⟩
theorem witness_StrictRunEndsAtFirstErr :
    AllWords [ports 0x00430820#32 0#32] ∧ AllWords [ports 0x0C#32 0#32, ports 0x8FBF0000#32 0#32] ∧
    (presenting (sequenced 0x003FFFFC#32 true) [ports 0x00430820#32 0#32, ports 0x0C#32 0#32, ports 0x8FBF0000#32 0#32]).halted = false ∧
    (sequenced 0x003FFFFC#32 true).strict = true ∧
    decodeWord builtRoms (ports 0x00430820#32 0#32).wordIn = .instr (.add 2 3 1 0) ∧
    decodeWord builtRoms (ports 0x0C#32 0#32).wordIn = .unsupported .funct 0x0C#6 :=
  ⟨by simp [AllWords, ports, InPorts.ofWord], by simp [AllWords, ports, InPorts.ofWord], rfl, rfl, by decide, by decide⟩
theorem witness_HaltedBlockHasNoStep :
    (haltedWith [ports 0x01398820#32 0#32]).halted = true ∧ (ports 0x01398820#32 0#32).rst = false ∧
    (ports 0x01398820#32 0#32).inValid = true ∧ (haltedWith [idlePorts]).halted = true ∧ idlePorts.rst = false ∧
    idlePorts.inValid = false ∧ (haltedWith [resetPorts 0#32 true false false]).halted = true ∧
    (resetPorts 0#32 true false false).rst = true ∧
    ∃ t, step (haltedWith [resetPorts 0#32 true false false]) = .next t ∧ t.halted = false :=
  ⟨rfl, rfl, rfl, rfl, rfl, rfl, rfl, rfl, _, rfl, rfl⟩
theorem witness_HaltedFlagRule :
    Presents (presenting (sequenced 0#32 true) [ports 0x3F#32 0#32]) (ports 0x3F#32 0#32) [] ∧
    (haltedWith [idlePorts]).halted = true ∧ (∃ t, step (haltedWith [idlePorts]) = .next t) ∧
    ∃ t, step (haltedWith [resetPorts 0#32 true false false]) = .next t :=
  ⟨presents_sequenced _ _ _ _, rfl, ⟨_, rfl⟩, ⟨_, rfl⟩⟩
theorem witness_IdleStepHoldsState :
    (haltedWith [idlePorts]).inputs = [idlePorts] ∧ idlePorts.rst = false ∧ idlePorts.inValid = false := ⟨rfl, rfl, rfl⟩
theorem witness_ResetCapturesConfiguration :
    (haltedWith [resetPorts 0x1000#32 false true false]).inputs = [resetPorts 0x1000#32 false true false] ∧
    (resetPorts 0x1000#32 false true false).rst = true ∧
    ∃ t, step (haltedWith [resetPorts 0x1000#32 false true false]) = .next t ∧
      t.cfg ≠ (haltedWith [resetPorts 0x1000#32 false true false]).cfg :=
  ⟨rfl, rfl, _, rfl, by decide⟩
theorem witness_NoResultAfterReset :
    (haltedWith [resetPorts 0xFFFFFFFC#32 true false false, ports 0x01398820#32 0#32]).inputs =
      resetPorts 0xFFFFFFFC#32 true false false :: [ports 0x01398820#32 0#32] ∧
    (resetPorts 0xFFFFFFFC#32 true false false).rst = true ∧ (resetPorts 0xFFFFFFFC#32 true false false).cfgSeqEn = true ∧
    (ports 0x01398820#32 0#32).rst = false ∧ (ports 0x01398820#32 0#32).inValid = true := ⟨rfl, rfl, rfl, rfl, rfl⟩
theorem witness_CfgConstantDuringRun :
    (ports 0x01398820#32 0#32).rst = false ∧
    ∃ t, step (presenting (external .abi) [ports 0x01398820#32 0#32]) = .next t := ⟨rfl, _, rfl⟩
theorem witness_SequencerAdvances :
    Presents (presenting (sequenced 0xFFFFFFFC#32 false) [ports 0x3F#32 0#32]) (ports 0x3F#32 0#32) [] ∧
    (sequenced 0xFFFFFFFC#32 false).seqEn = true ∧
    (presenting (sequenced 0xFFFFFFFC#32 false) [ports 0x3F#32 0#32]).seqAddr = 0xFFFFFFFC#32 ∧
    Presents (presenting (external .numeric) [ports 0x3F#32 1#32]) (ports 0x3F#32 1#32) [] ∧ (external .numeric).seqEn = false :=
  ⟨presents_sequenced _ _ _ _, rfl, rfl, presents_external .numeric _ _ _, rfl⟩
theorem witness_AnyAddressIsAccepted :
    Presents (presenting (external .numeric) [ports 0x10000000#32 0x0007A061#32]) (ports 0x10000000#32 0x0007A061#32) [] :=
  presents_external .numeric _ _ _
theorem witness_UnsupportedWordEmitsErr :
    Presents (presenting (sequenced 0#32 true) [ports 0x04000000#32 0#32]) (ports 0x04000000#32 0#32) [] ∧
    (ports 0x04000000#32 0#32).wordIn.extractLsb' 26 6 ≠ 0#6 ∧
    (ports 0x04000000#32 0#32).wordIn.extractLsb' 26 6 ∉ [0x04#6, 0x05#6, 0x23#6, 0x2B#6] ∧
    Presents (presenting (sequenced 0#32 true) [ports 0x00000000#32 0#32]) (ports 0x00000000#32 0#32) [] ∧
    (ports 0x00000000#32 0#32).wordIn.extractLsb' 26 6 = 0#6 ∧
    (ports 0x00000000#32 0#32).wordIn.extractLsb' 0 6 ∉ [0x20#6, 0x22#6, 0x24#6, 0x25#6, 0x2A#6] :=
  ⟨presents_sequenced _ _ _ _, by decide, by decide, presents_sequenced _ _ _ _, by decide, by decide⟩
theorem witness_ErrRaisedExactlyWhen :
    Presents (presenting (external .numeric) [ports 0xFFFFFFFF#32 0#32]) (ports 0xFFFFFFFF#32 0#32) [] :=
  presents_external .numeric _ _ _
theorem witness_ContinuesAfterErr :
    Presents (presenting (sequenced 0#32 false) [ports 0x3F#32 0#32, ports 0x01398820#32 0#32]) (ports 0x3F#32 0#32)
      [ports 0x01398820#32 0#32] ∧
    (sequenced 0#32 false).strict = false ∧ (ports 0x01398820#32 0#32).rst = false ∧ (ports 0x01398820#32 0#32).inValid = true :=
  ⟨presents_sequenced _ _ _ _, rfl, rfl, rfl⟩
theorem witness_UnsupportedExamplesRaise :
    Presents (presenting (external .numeric) [ports 0#32 0#32]) (ports 0#32 0#32) [] ∧ (ports 0#32 0#32).wordIn = 0x00000000#32 :=
  ⟨presents_external .numeric _ _ _, rfl⟩
theorem witness_FormatFixedByOpcode :
    classify 0xFC000000#32 = .iFormat ∧ (0xFC000000#32 : Word).extractLsb' 26 6 ∉ [0x04#6, 0x05#6, 0x23#6, 0x2B#6] := by decide
theorem witness_MnemonicIdsAndClasses :
    ∃ t r, step (presenting (external .numeric) [ports 0x14000000#32 0#32]) = .next t ∧ t.outPorts.mnem = some 8#4 ∧
      t.out = some (.ok r) ∧ r.fmt = .iFormat := ⟨_, _, rfl, rfl, rfl, rfl⟩
theorem witness_UnsupportedSpaceIsExact :
    decodeWord builtRoms 0xFC000000#32 = .unsupported .opcode 0x3F#6 ∧ decodeWord builtRoms 0x00000000#32 = .unsupported .funct 0#6 := by
  decide
theorem witness_DecodeOfEncodeIsIdentity : (Instr.lw 31 0 (-32768)).wellFormed = true := by decide
theorem witness_EncodeOfDecodeIsIdentity : decodeWord builtRoms 0x03FFFFEA#32 = .instr (.slt 31 31 31 31) := by decide
theorem witness_IgnoredBitsAreNotRead :
    Presents (presenting (external .numeric) [ports 0x00221820#32 0#32]) (ports 0x00221820#32 0#32) [] ∧
    (ports 0x00221820#32 0#32).wordIn.extractLsb' 26 6 = 0#6 ∧
    (0x00221FE0#32 : Word) &&& 0xFFFFF83F#32 = (ports 0x00221820#32 0#32).wordIn &&& 0xFFFFF83F#32 :=
  ⟨presents_external .numeric _ _ _, by decide, by decide⟩
theorem witness_BranchTargetArithmetic :
    Presents (presenting (external .numeric) [ports 0x1000FFFE#32 0#32]) (ports 0x1000FFFE#32 0#32) [] ∧
    (ports 0x1000FFFE#32 0#32).wordIn.extractLsb' 26 6 = 0x04#6 := ⟨presents_external .numeric _ _ _, by decide⟩
theorem witness_HexLowerIsShortest :
    ∃ t r, step (presenting (external .numeric) [ports 0x3F#32 0xFFFFFFFC#32]) = .next t ∧ t.out = some r := ⟨_, _, rfl, rfl⟩
theorem witness_TextStaysInRepertoire :
    ∃ t text, step (presenting (external .numeric) [ports 0x01398820#32 0#32]) = .next t ∧ t.outPorts.text = some text ∧
      t.outPorts.addrText = some "0".toList := ⟨_, _, rfl, rfl, by decide⟩
theorem witness_OkRecordContents :
    Presents (presenting (external .numeric) [ports 0x8D3104D2#32 0#32]) (ports 0x8D3104D2#32 0#32) [] ∧
    ∃ i, decodeWord (presenting (external .numeric) [ports 0x8D3104D2#32 0#32]).roms (ports 0x8D3104D2#32 0#32).wordIn = .instr i :=
  ⟨presents_external .numeric _ _ _, .lw 9 17 1234, by decide⟩
theorem witness_ErrPortsCarryNoDecode :
    Presents (presenting (sequenced 0#32 true) [ports 0xF8000000#32 0#32]) (ports 0xF8000000#32 0#32) [] ∧
    decodeWord (presenting (sequenced 0#32 true) [ports 0xF8000000#32 0#32]).roms (ports 0xF8000000#32 0#32).wordIn =
      .unsupported .opcode 0x3E#6 := ⟨presents_sequenced _ _ _ _, by decide⟩
theorem witness_OkPortsValidWhen :
    Presents (presenting (external .numeric) [ports 0x03FFF820#32 0#32]) (ports 0x03FFF820#32 0#32) [] ∧
    decodeWord (presenting (external .numeric) [ports 0x03FFF820#32 0#32]).roms (ports 0x03FFF820#32 0#32).wordIn =
      .instr (.add 31 31 31 0) ∧
    Presents (presenting (external .numeric) [ports 0x1000FFFE#32 0#32]) (ports 0x1000FFFE#32 0#32) [] ∧
    decodeWord (presenting (external .numeric) [ports 0x1000FFFE#32 0#32]).roms (ports 0x1000FFFE#32 0#32).wordIn =
      .instr (.beq 0 0 (-2)) :=
  ⟨presents_external .numeric _ _ _, by decide, presents_external .numeric _ _ _, by decide⟩
theorem witness_ResultDependsOnWordAddressNaming :
    Presents (presenting (external .numeric) [ports 0x16290000#32 4#32]) (ports 0x16290000#32 4#32) [] ∧
    Presents (presenting (sequenced 0#32 true) [ports 0x16290000#32 0#32, idlePorts]) (ports 0x16290000#32 0#32) [idlePorts] ∧
    addressOf (presenting (external .numeric) [ports 0x16290000#32 4#32]) (ports 0x16290000#32 4#32) =
      addressOf (presenting (sequenced 0#32 true) [ports 0x16290000#32 0#32, idlePorts]) (ports 0x16290000#32 0#32) ∧
    (external .numeric).naming = (sequenced 0#32 true).naming :=
  ⟨presents_external .numeric _ _ _, presents_sequenced _ _ _ _, by decide, rfl⟩
theorem witness_SeqAddrUnreadWhenOff :
    Presents (presenting (external .abi) [ports 0x16290000#32 4#32]) (ports 0x16290000#32 4#32) [] ∧ (external .abi).seqEn = false :=
  ⟨presents_external .abi _ _ _, rfl⟩
theorem witness_EarlierResultsAreNotReadBack :
    (∃ t, step (presenting (external .numeric) [ports 0x3F#32 0#32]) = .next t) ∧
    step (haltedWith [ports 0x3F#32 0#32]) = .fault .halted := ⟨⟨_, rfl⟩, rfl⟩

/-- A state in the middle of a run that meets the run invariant, with a step to take: one result, sequencer on. -/
theorem witness_RunInvariantKeptByEveryStep :
    ∃ s t, RunInv s ∧ s.results.length = 1 ∧ step s = .next t := by
  refine ⟨{ State.resetWith (sequenced 0#32 true) with
            seqAddr := 4#32
            inputs := [ports 0x3F#32 0#32]
            results := [datapathDecode builtRoms 0x01398820#32 4#32 .numeric] }, _, ?_, rfl, rfl⟩
  exact
    { counter := fun _ => by decide
      counterOff := fun h => by cases h
      addresses := fun _ k r h => by
        cases k with
        | zero => cases h; decide
        | succ k => cases h
      decoded := fun r h => by
        cases List.mem_singleton.mp h
        rfl
      haltedByErr := fun h => by cases h
      strictOk := fun _ r h => by cases h
      strictRunning := fun _ _ r h => by
        cases List.mem_singleton.mp h
        rfl
      presented := .inl rfl }

end Sys2Proof.Tests
end

section
/-! SUPPORT. The sequencer and the address of a result (10_state.md R23 to R29). -/

namespace Sys2Proof.Machine

/-! ### CUR_ADDR, sequencer on and off (R23) -/

theorem curAddr_on {s : State} (h : s.cfg.seqEn = true) (p : InPorts) : s.curAddr p = s.nextSeqAddr := by
  simp [State.curAddr, h]

theorem curAddr_off {s : State} (h : s.cfg.seqEn = false) (p : InPorts) : s.curAddr p = p.addrIn := by
  simp [State.curAddr, h]

/-! ### How the datapath's result depends on the address -/

@[simp] theorem datapathDecode_addr (roms : Roms) (w a : Word) (n : Naming) : (datapathDecode roms w a n).addr = a := by
  rw [datapathDecode_eq]
  cases decodeWord roms w <;> rfl

/-- Whether a result is an `Err` is a matter of the word alone (R29, R141). -/
theorem datapathDecode_isErr_iff (roms : Roms) (w a : Word) (n : Naming) :
    (datapathDecode roms w a n).isErr = true ↔ ∃ kind code, decodeWord roms w = .unsupported kind code := by
  rw [datapathDecode_eq]
  cases decodeWord roms w with
  | instr i => simp
  | unsupported kind code => simp

/-- Only the branches have a target, and it is the branch-target adder's (R98, R99). -/
theorem operandsTarget_operandsAt {i : Instr} {a target : Word} (h : operandsTarget (operandsAt i a) = some target) :
    ∃ imm16, target = branchTarget a imm16 := by
  cases i with
  | beq rs rt simm => exact ⟨imm16Of simm, (Option.some.inj h).symm⟩
  | bne rs rt simm => exact ⟨imm16Of simm, (Option.some.inj h).symm⟩
  | _ => cases h

theorem datapathDecode_target {roms : Roms} {w a target : Word} {n : Naming} {r : OkRecord}
    (hr : datapathDecode roms w a n = .ok r) (ht : r.target = some target) : ∃ imm16, target = branchTarget a imm16 := by
  rw [datapathDecode_eq] at hr
  cases hd : decodeWord roms w with
  | instr i =>
    rw [hd] at hr
    cases hr
    exact operandsTarget_operandsAt ht
  | unsupported kind code =>
    rw [hd] at hr
    cases hr

/-! ### No alignment (R29) -/

/-- A branch offset is a multiple of 4 (R69). -/
theorem off32_toNat_mod_four (imm16 : Imm) : (off32 imm16).toNat % 4 = 0 := by
  rw [off32, BitVec.toNat_shiftLeft, Nat.shiftLeft_eq]
  omega

/-- The adder adds multiples of 4, modulo a multiple of 4: the target is misaligned by as much as the address (R99). -/
theorem branchTarget_toNat_mod_four (a : Word) (imm16 : Imm) : (branchTarget a imm16).toNat % 4 = a.toNat % 4 := by
  have hoff := off32_toNat_mod_four imm16
  simp only [branchTarget, BitVec.toNat_add, BitVec.toNat_ofNat]
  omega

/-! ### The statements -/

/-- Settles O25: the consumed word leaves SEQ_ADDR at `nextSeqAddr` and its result bears `curAddr`, whatever it decodes to. -/
theorem sequencerAdvances : Obligations.SequencerAdvances := by
  intro s p rest hp
  refine ⟨_, _, step_of_presents hp, rfl, fun hon => ?_, fun hoff => ?_⟩
  · rw [datapathDecode_addr, consume_seqAddr, curAddr_on hon, nextSeqAddr_on hon]
    refine ⟨by simp [BitVec.toNat_add], rfl, fun hlast => ?_⟩
    rw [hlast]
    rfl
  · rw [datapathDecode_addr, consume_seqAddr, curAddr_off hoff, nextSeqAddr_off hoff]
    exact ⟨rfl, rfl⟩

/-- Settles O26: a presented word is always answered, its address decides neither `Ok` nor `Err`, and a target is congruent to it
modulo 4. -/
theorem anyAddressIsAccepted : Obligations.AnyAddressIsAccepted := by
  refine ⟨fun s p rest hp => ?_, branchTarget_toNat_mod_four⟩
  refine ⟨_, _, step_of_presents hp, rfl, ?_, datapathDecode_isErr_iff _ _ _ _, fun r hr target ht => ?_⟩
  · rw [datapathDecode_addr, curAddr_eq, addressOf]
  · obtain ⟨imm16, rfl⟩ := datapathDecode_target hr ht
    rw [datapathDecode_addr, branchTarget_toNat_mod_four]

end Sys2Proof.Machine
end

section
/-! SUPPORT. The selecting fields of a word and the opcode table, field extraction by mask and shift, and the branch offset
(30_encoding.md R61, R65, R69, R74). -/

namespace Sys2Proof

/-! ### The opcode table row by row (R70, R71) -/

/-- The word's selecting fields are those of the mnemonic (R98): opcode 0 and its function code in the R format, its opcode in the I
format. -/
def Selects (m : Mnem) (w : Word) : Prop :=
  if classOf m = .arith then opcodeOf w = 0#6 ∧ functOf w = selectorOf m else opcodeOf w = selectorOf m

/-- Every row has its format's mask, and its match value is the selector at its place (R62, R64, R70, R71). -/
theorem opcodeTable_row_shape : ∀ row ∈ opcodeTable,
    if classOf row.mnem = .arith then row.mask = 0xFC00003F#32 ∧ row.pattern = placeField (selectorOf row.mnem) 0
    else row.mask = 0xFC000000#32 ∧ row.pattern = placeField (selectorOf row.mnem) 26 := by
  decide

theorem opcodeTable_has_row : ∀ m : Mnem, ∃ row ∈ opcodeTable, row.mnem = m := by
  intro m
  cases m <;> decide

theorem opcodeTable_row_unique : ∀ row ∈ opcodeTable, ∀ row' ∈ opcodeTable, row'.mnem = row.mnem → row' = row := by
  decide

/-- Exactly the R-format words with the function code `f` are `f` under the R-format mask (R62). -/
theorem mask_eq_placeField_funct_iff (w : Word) (f : Code) :
    w &&& 0xFC00003F#32 = placeField f 0 ↔ opcodeOf w = 0#6 ∧ functOf w = f := by
  refine ⟨fields_of_mask f, fun ⟨hop, hf⟩ => ?_⟩
  rw [← encodeR_fields w hop, hf, Laws.EncodeMatches.encodeR_mask]

/-- Exactly the words with the opcode `op` are `op` at its place under the I-format mask (R64). -/
theorem mask_eq_placeField_opcode_iff (w : Word) (op : Code) : w &&& 0xFC000000#32 = placeField op 26 ↔ opcodeOf w = op := by
  refine ⟨opcodeOf_of_mask op, fun hop => ?_⟩
  rw [← encodeI_fields w, hop, Laws.EncodeMatches.encodeI_mask]

/-- A row of the table matches exactly the words with its mnemonic's selecting fields. -/
theorem matchesWord_iff_selects {row : TableRow} (hrow : row ∈ opcodeTable) (w : Word) :
    row.matchesWord w = true ↔ Selects row.mnem w := by
  have hshape := opcodeTable_row_shape row hrow
  rw [TableRow.matchesWord, beq_iff_eq, Selects]
  split at hshape
  · next hc =>
    obtain ⟨hmask, hpattern⟩ := hshape
    rw [if_pos hc, hmask, hpattern, mask_eq_placeField_funct_iff]
  · next hc =>
    obtain ⟨hmask, hpattern⟩ := hshape
    rw [if_neg hc, hmask, hpattern, mask_eq_placeField_opcode_iff]

/-- The decoder answers the mnemonic whose selecting fields the word has (R91, R95 to R97). -/
theorem selects_of_decodeWord {roms : Roms} {w : Word} {i : Instr} (h : decodeWord roms w = .instr i) : Selects i.mnem w := by
  by_cases hop : opcodeOf w = 0#6
  · rw [decodeWord_of_opcode_zero roms w hop] at h
    repeat' split at h
    all_goals cases h <;> exact ⟨hop, ‹_›⟩
  · rw [decodeWord_of_opcode_nonzero roms w hop] at h
    repeat' split at h
    all_goals cases h <;> assumption

/-- A word with a mnemonic's selecting fields decodes to an instruction of that mnemonic. -/
theorem decodeWord_of_selects (roms : Roms) {w : Word} {m : Mnem} (h : Selects m w) :
    ∃ i, decodeWord roms w = .instr i ∧ i.mnem = m := by
  cases m with
  | add | sub | and | or | slt =>
    obtain ⟨hop, hf⟩ := h
    rw [decodeWord_of_opcode_zero roms w hop, hf]
    exact ⟨_, rfl, rfl⟩
  | lw | sw | beq | bne =>
    have hop : opcodeOf w = _ := h
    rw [decodeWord_of_opcode_nonzero roms w (by rw [hop]; decide), hop]
    exact ⟨_, rfl, rfl⟩

/-- Settles O36: a row matches exactly when the word decodes to an instruction of the row's mnemonic, and no two rows share one. -/
theorem eachWordHasOneOutcome : Obligations.EachWordHasOneOutcome := by
  intro roms w
  have hmatch : ∀ row ∈ opcodeTable, row.matchesWord w = true → ∃ i, decodeWord roms w = .instr i ∧ i.mnem = row.mnem :=
    fun row hrow hm => decodeWord_of_selects roms ((matchesWord_iff_selects hrow w).mp hm)
  cases hd : decodeWord roms w with
  | instr i =>
    obtain ⟨row, hrow, hmnem⟩ := opcodeTable_has_row i.mnem
    refine .inl ⟨i, row, rfl, hrow, hmnem, ?_, fun row' hrow' hm => ?_⟩
    · rw [matchesWord_iff_selects hrow, hmnem]
      exact selects_of_decodeWord hd
    · obtain ⟨i', hd', hmnem'⟩ := hmatch row' hrow' hm
      rw [hd, Decoded.instr.injEq] at hd'
      exact opcodeTable_row_unique row hrow row' hrow' (by rw [hmnem, ← hmnem', hd'])
  | unsupported kind code =>
    refine .inr ⟨kind, code, rfl, fun row hrow => Bool.eq_false_iff.mpr fun hm => ?_⟩
    obtain ⟨i, hd', -⟩ := hmatch row hrow hm
    rw [hd] at hd'
    cases hd'

/-! ### Format (R61) -/

theorem classify_eq_rFormat_iff (w : Word) : classify w = .rFormat ↔ opcodeOf w = 0#6 := by
  by_cases h : opcodeOf w = 0#6 <;> simp [classify, h]

theorem classify_eq_iFormat_iff (w : Word) : classify w = .iFormat ↔ opcodeOf w ≠ 0#6 := by
  by_cases h : opcodeOf w = 0#6 <;> simp [classify, h]

/-- Settles O31: the classifier tests the opcode for 0, and the I-format decoder knows the four opcodes of the table only. -/
theorem formatFixedByOpcode : Obligations.FormatFixedByOpcode := by
  refine ⟨fun w => ⟨classify_eq_rFormat_iff w, classify_eq_iFormat_iff w⟩, fun roms w hfmt hop => ?_⟩
  change opcodeOf w ∉ _ at hop
  simp only [List.mem_cons, List.not_mem_nil, or_false, not_or] at hop
  obtain ⟨h4, h5, h23, h2B⟩ := hop
  rw [decodeWord_of_opcode_nonzero roms w ((classify_eq_iFormat_iff w).mp hfmt), if_neg h4, if_neg h5, if_neg h23, if_neg h2B]
  rfl

/-! ### Field extraction (R65) -/

/-- A field is the word under the mask of the field's place, shifted down; the mask is the field of all ones. -/
theorem extractLsb'_eq_mask_shift (w : Word) (lo n : Nat) :
    (w.extractLsb' lo n).setWidth 32 = (w &&& placeField (BitVec.allOnes n) lo) >>> lo := by
  ext k hk
  by_cases hkn : k < n
  · have hbit : w.getLsbD (lo + k) = true → lo + k < 32 := BitVec.lt_of_getLsbD
    simpa [placeField, hkn, hk] using hbit
  · simp [placeField, hkn]

/-- A field is the word shifted down, under the mask of the field's width. -/
theorem extractLsb'_eq_shift_mask (w : Word) (lo n : Nat) :
    (w.extractLsb' lo n).setWidth 32 = (w >>> lo) &&& placeField (BitVec.allOnes n) 0 := by
  ext k hk
  by_cases hkn : k < n <;> simp [placeField, hkn]

theorem signed16_eq (v : Imm) : signed16 v = if v.toNat < 32768 then (v.toNat : Int) else v.toNat - 65536 := by
  rw [signed16, BitVec.toInt_eq_toNat_cond]
  split_ifs <;> omega

/-- Settles O32: each mask of the source is its field of all ones at its place. -/
theorem fieldsByMaskAndShift : Obligations.FieldsByMaskAndShift := fun w =>
  ⟨extractLsb'_eq_mask_shift w 26 6, extractLsb'_eq_shift_mask w 26 6, extractLsb'_eq_mask_shift w 21 5,
    extractLsb'_eq_mask_shift w 16 5, extractLsb'_eq_mask_shift w 11 5, extractLsb'_eq_mask_shift w 0 6,
    extractLsb'_eq_mask_shift w 0 16, signed16_eq _⟩

/-! ### The branch offset (R69) -/

theorem signed16_bounds (v : Imm) : -32768 ≤ signed16 v ∧ signed16 v ≤ 32767 := by
  simpa [simmInRange] using simmInRange_signed16 v

theorem sext32_toInt (v : Imm) : (sext32 v).toInt = signed16 v := BitVec.toInt_signExtend_of_le (by decide)

end Sys2Proof

namespace Sys2Proof.Machine

/-- The shift multiplies by 4, and 17 bits and a sign hold the product. -/
theorem off32_toInt (v : Imm) : (off32 v).toInt = 4 * signed16 v := by
  have hfour : (BitVec.twoPow 32 2).toInt = 4 := by decide
  obtain ⟨hlo, hhi⟩ := signed16_bounds v
  rw [off32, BitVec.shiftLeft_eq_mul_twoPow, BitVec.toInt_mul, sext32_toInt, hfour, Int.mul_comm]
  exact Int.bmod_eq_of_le (by omega) (by omega)

/-- Settles O42: the bounds are four times those of `signed16`. -/
theorem branchOffsetRange : Obligations.BranchOffsetRange := by
  refine ⟨fun imm16 => ?_, fun _ _ => rfl⟩
  obtain ⟨hlo, hhi⟩ := signed16_bounds imm16
  rw [off32_toInt]
  exact ⟨rfl, rfl, by omega, by omega, off32_toNat_mod_four imm16⟩

end Sys2Proof.Machine
end

section
/-! SUPPORT. What numerals denote and that they are the shortest, and the characters of rendered text (30_encoding.md R80 to R85). -/

namespace Sys2Proof.Machine

/-- A property of every character of a text, checked along the text. (`decide` on the statement itself
takes Batteries' instance for a quantifier over `Char` and goes through all characters.) -/
theorem forall_mem_of_all {P : Char → Prop} [DecidablePred P] {t : Text} (h : t.all (fun c => decide (P c)) = true) :
    ∀ c ∈ t, P c := by
  simpa using h

/-! ### The value of a digit list (R80, R82) -/

theorem digits_ne_nil {base : Nat} (hb : 2 ≤ base) (n : Nat) : digits base n ≠ [] := by
  rcases Nat.lt_or_ge n base with h | h
  · simp [digits_of_lt h]
  · simp [digits_of_ge hb h]

@[simp] theorem numeralValue_append_singleton (base : Nat) (t : Text) (c : Char) :
    numeralValue base (t ++ [c]) = numeralValue base t * base + digitValue c := by
  simp [numeralValue]

/-- A digit list, each digit written as a character of its value, denotes the number. -/
theorem numeralValue_digits {base : Nat} (hb : 2 ≤ base) {f : Nat → Char} (hf : ∀ d < base, digitValue (f d) = d) (n : Nat) :
    numeralValue base ((digits base n).map f) = n := by
  induction n using Nat.strongRecOn with
  | ind n ih =>
    rcases Nat.lt_or_ge n base with h | h
    · simp [digits_of_lt h, numeralValue, hf n h]
    · rw [digits_of_ge hb h, List.map_append, List.map_singleton, numeralValue_append_singleton,
        ih (n / base) (Nat.div_lt_self (by omega) (by omega)), hf _ (Nat.mod_lt n (by omega)), Nat.div_add_mod']

/-! ### The length of a numeral -/

/-- A numeral of `k` digits denotes a number below `base ^ k`. -/
theorem numeralValue_lt_pow {base : Nat} {t : Text} (ht : ∀ c ∈ t, digitValue c < base) : numeralValue base t < base ^ t.length := by
  induction t using List.reverseRecOn with
  | nil => simp [numeralValue]
  | append_singleton t c ih =>
    have hinit : numeralValue base t + 1 ≤ base ^ t.length := ih fun d hd => ht d (by simp [hd])
    have hlast : digitValue c < base := ht c (by simp)
    calc numeralValue base (t ++ [c])
        < (numeralValue base t + 1) * base := by rw [numeralValue_append_singleton, Nat.succ_mul]; omega
      _ ≤ base ^ t.length * base := Nat.mul_le_mul_right _ hinit
      _ = base ^ (t ++ [c]).length := by rw [List.length_append, List.length_singleton, Nat.pow_succ]

/-- A number below `base ^ (k + 1)` has at most `k + 1` digits. -/
theorem digits_length_le {base : Nat} (hb : 2 ≤ base) (k : Nat) : ∀ n < base ^ (k + 1), (digits base n).length ≤ k + 1 := by
  induction k with
  | zero =>
    intro n hn
    rw [digits_of_lt (by simpa using hn)]
    rfl
  | succ k ih =>
    intro n hn
    rcases Nat.lt_or_ge n base with h | h
    · simp [digits_of_lt h]
    · have hrest := ih (n / base) (Nat.div_lt_of_lt_mul (by rwa [Nat.mul_comm, ← Nat.pow_succ]))
      simpa [digits_of_ge hb h] using hrest

/-! ### The shortest numeral -/

/-- A digit list written over characters that have the digits' values is the shortest numeral over them. -/
theorem isShortestNumeral_digits {base : Nat} (hb : 2 ≤ base) {chars : List Char} {f : Nat → Char}
    (hmem : ∀ d < base, f d ∈ chars) (hf : ∀ d < base, digitValue (f d) = d) (hlt : ∀ c ∈ chars, digitValue c < base) (n : Nat) :
    IsShortestNumeral base chars n ((digits base n).map f) := by
  refine ⟨by simpa using digits_ne_nil hb n, fun c hc => ?_, numeralValue_digits hb hf n, fun t' hne hchars hval => ?_⟩
  · obtain ⟨d, hd, rfl⟩ := List.mem_map.mp hc
    exact hmem d (digits_lt hb n d hd)
  · have hn : n < base ^ t'.length := hval ▸ numeralValue_lt_pow fun c hc => hlt c (hchars c hc)
    obtain ⟨k, hk⟩ : ∃ k, t'.length = k + 1 := Nat.exists_eq_succ_of_ne_zero (by simpa using hne)
    rw [List.length_map, hk]
    exact digits_length_le hb k n (hk ▸ hn)

theorem dec_isShortestNumeral (n : Nat) : IsShortestNumeral 10 decimalChars n (dec n) :=
  isShortestNumeral_digits (by decide) (by decide) (by decide) (forall_mem_of_all (by decide)) n

theorem hexL_isShortestNumeral (x : Word) : IsShortestNumeral 16 lowerHexChars x.toNat (hexL x) :=
  isShortestNumeral_digits (by decide) (by decide) (by decide) (forall_mem_of_all (by decide)) x.toNat

theorem hexU_isShortestNumeral (x : Word) : IsShortestNumeral 16 upperHexChars x.toNat (hexU x) := by
  rw [hexU, hexL, List.map_map]
  exact isShortestNumeral_digits (by decide) (by decide) (by decide) (forall_mem_of_all (by decide)) x.toNat

/-- Settles O43: `dec` writes the digit list of base 10 over the decimal characters. -/
theorem decIsShortestDecimal : Obligations.DecIsShortestDecimal := ⟨dec_isShortestNumeral, rfl⟩

/-! ### `sdec` (R81) -/

theorem sdec_of_neg {v : Int} (h : v < 0) : sdec v = '-' :: dec v.natAbs := by
  rw [sdec, if_pos h, show (-v).toNat = v.natAbs by omega]

theorem sdec_of_nonneg {v : Int} (h : 0 ≤ v) : sdec v = dec v.natAbs := by
  rw [sdec, if_neg (by omega), show v.toNat = v.natAbs by omega]

/-- Settles O44, by the sign of the value. -/
theorem sdecSpelling : Obligations.SdecSpelling :=
  ⟨fun _ _ _ => ⟨sdec_of_neg, sdec_of_nonneg⟩, by decide, by decide, by decide, by decide⟩

/-! ### Hexadecimal (R82, R83) -/

/-- The address text of a presented result (R87). -/
theorem outPorts_addrText {t : State} {r : Result} (h : t.out = some r) : t.outPorts.addrText = some (hexL r.addr) := by
  cases r <;> simp [State.outPorts, h, okPorts, errPorts, Result.addrText]

/-- Settles O45: the address of any emitted result is projected through `hexL`. -/
theorem hexLowerIsShortest : Obligations.HexLowerIsShortest :=
  ⟨hexL_isShortestNumeral, by decide, by decide, fun _ _ _ _ hout => outPorts_addrText hout⟩

theorem upperHexChar_eq_toUpper : ∀ c ∈ lowerHexChars, upperHexChar c = c.toUpper :=
  forall_mem_of_all (by decide)

/-- `hexU` is `hexL` with each character in uppercase. -/
theorem hexU_eq_map_toUpper (x : Word) : hexU x = (hexL x).map Char.toUpper := by
  obtain ⟨-, hchars, -, -⟩ := hexL_isShortestNumeral x
  exact List.map_congr_left fun c hc => upperHexChar_eq_toUpper c (hchars c hc)

/-- Settles O46: `upperHexChar` keeps a digit's value and is uppercasing on the characters of `hexL`. -/
theorem hexUpperDenotesTarget : Obligations.HexUpperDenotesTarget := by
  refine ⟨fun x => ⟨hexU_isShortestNumeral x, List.length_map _, fun k c hc => ?_⟩, by decide, by decide, by decide⟩
  rw [hexU_eq_map_toUpper, List.getElem?_map, hc]
  rfl

/-! ### The repertoire (R85) -/

/-- Every character of the text is one that R85 allows. -/
def InRepertoire (t : Text) : Prop := ∀ c ∈ t, c ∈ repertoire

@[simp] theorem inRepertoire_nil : InRepertoire [] := by simp [InRepertoire]

@[simp] theorem inRepertoire_cons (c : Char) (t : Text) : InRepertoire (c :: t) ↔ c ∈ repertoire ∧ InRepertoire t := by
  simp [InRepertoire]

@[simp] theorem inRepertoire_append (t u : Text) : InRepertoire (t ++ u) ↔ InRepertoire t ∧ InRepertoire u := by
  simp only [InRepertoire, List.mem_append]
  exact ⟨fun h => ⟨fun c hc => h c (.inl hc), fun c hc => h c (.inr hc)⟩, fun ⟨ht, hu⟩ c hc => hc.elim (ht c) (hu c)⟩

/-- The repertoire is ASCII and holds no line terminator. -/
theorem repertoire_ascii : ∀ c ∈ repertoire, c.toNat < 128 ∧ c ≠ '\n' ∧ c ≠ '\r' :=
  forall_mem_of_all (by decide)

theorem InRepertoire.mem_ascii {t : Text} (h : InRepertoire t) :
    ∀ c ∈ t, c ∈ repertoire ∧ c.toNat < 128 ∧ c ≠ '\n' ∧ c ≠ '\r' :=
  fun c hc => ⟨h c hc, repertoire_ascii c (h c hc)⟩

theorem IsShortestNumeral.inRepertoire {base n : Nat} {chars : List Char} {t : Text} (h : IsShortestNumeral base chars n t)
    (hsub : ∀ c ∈ chars, c ∈ repertoire) : InRepertoire t := by
  obtain ⟨-, hchars, -, -⟩ := h
  exact fun c hc => hsub c (hchars c hc)

@[simp] theorem inRepertoire_dec (n : Nat) : InRepertoire (dec n) :=
  (dec_isShortestNumeral n).inRepertoire (forall_mem_of_all (by decide))

@[simp] theorem inRepertoire_hexL (x : Word) : InRepertoire (hexL x) :=
  (hexL_isShortestNumeral x).inRepertoire (forall_mem_of_all (by decide))

@[simp] theorem inRepertoire_hexU (x : Word) : InRepertoire (hexU x) :=
  (hexU_isShortestNumeral x).inRepertoire (forall_mem_of_all (by decide))

@[simp] theorem inRepertoire_sdec (v : Int) : InRepertoire (sdec v) := by
  rcases lt_or_ge v 0 with h | h
  · rw [sdec_of_neg h, inRepertoire_cons]
    exact ⟨by decide, inRepertoire_dec _⟩
  · rw [sdec_of_nonneg h]
    exact inRepertoire_dec _

theorem inRepertoire_abiName : ∀ n : RegIndex, ∀ c ∈ abiName n, c ∈ repertoire := by
  intro n
  exact forall_mem_of_all (by revert n; decide)

@[simp] theorem inRepertoire_reg (naming : Naming) (n : RegIndex) : InRepertoire (reg naming n) := by
  cases naming with
  | numeric => exact (inRepertoire_cons _ _).mpr ⟨by decide, inRepertoire_dec _⟩
  | abi => exact (inRepertoire_cons _ _).mpr ⟨by decide, inRepertoire_abiName n⟩

@[simp] theorem inRepertoire_mnemText (m : Mnem) : InRepertoire (mnemText m) := by
  cases m <;> exact forall_mem_of_all (by decide)

@[simp] theorem inRepertoire_secondSeparator (c : OperandClass) : InRepertoire (secondSeparator c) := by
  cases c <;> exact forall_mem_of_all (by decide)

@[simp] theorem inRepertoire_slotText (naming : Naming) (slot : Slot) : InRepertoire (slotText naming slot) := by
  cases slot with
  | reg n => exact inRepertoire_reg naming n
  | disp v => exact inRepertoire_sdec v
  | base n =>
    have hclose : InRepertoire [')'] := forall_mem_of_all (by decide)
    exact (inRepertoire_cons _ _).mpr ⟨by decide, (inRepertoire_append _ _).mpr ⟨inRepertoire_reg naming n, hclose⟩⟩
  | target t =>
    have haddress : InRepertoire "address ".toList := forall_mem_of_all (by decide)
    exact (inRepertoire_append _ _).mpr ⟨haddress, inRepertoire_hexU t⟩

/-- The renderer adds to its slots only letters, spaces and commas (R75 to R78). -/
theorem inRepertoire_render (naming : Naming) (m : Mnem) (ops : Operands) : InRepertoire (render naming m ops) := by
  have hspace : ' ' ∈ repertoire := by decide
  have hcomma : ',' ∈ repertoire := by decide
  simp [render, hspace, hcomma]

/-- Every text the datapath answers is the renderer's (R101, R103). -/
theorem datapathDecode_text {roms : Roms} {w a : Word} {naming : Naming} {r : OkRecord}
    (h : datapathDecode roms w a naming = .ok r) : ∃ m ops, r.text = render naming m ops := by
  rw [datapathDecode_eq] at h
  cases hd : decodeWord roms w with
  | instr i =>
    rw [hd] at h
    cases h
    exact ⟨_, _, rfl⟩
  | unsupported kind code =>
    rw [hd] at h
    cases h

/-- Every result a step presents is the datapath's (R102). -/
theorem step_out {s t : State} {r : Result} (h : step s = .next t) (hout : t.out = some r) :
    ∃ w a, datapathDecode s.roms w a s.cfg.naming = r := by
  rcases step_next h with ⟨p, rest, -, -, rfl⟩ | ⟨p, rest, -, -, -, rfl⟩ | ⟨p, rest, -, rfl⟩
  · cases hout
  · cases hout
  · exact ⟨_, _, Option.some.inj hout⟩

/-- The `text` port carries the text of a presented `Ok` result, and nothing else (R34, R104). -/
theorem outPorts_text {t : State} {text : Text} (h : t.outPorts.text = some text) : ∃ r, t.out = some (.ok r) ∧ r.text = text := by
  unfold State.outPorts at h
  split at h
  · cases h
  · next r hout => exact ⟨r, hout, Option.some.inj h⟩
  · cases h

/-- The `addr_text` port carries `hexL` of an address, if anything (R87). -/
theorem outPorts_addrText_eq_hexL {t : State} {text : Text} (h : t.outPorts.addrText = some text) : ∃ a, text = hexL a := by
  cases hout : t.out with
  | none => simp [State.outPorts, hout, silentPorts] at h
  | some r => exact ⟨r.addr, Option.some.inj (h.symm.trans (outPorts_addrText hout))⟩

/-- Settles O49: the `text` port is the renderer's and the `addr_text` port is `hexL`'s, and both keep to the repertoire. -/
theorem textStaysInRepertoire : Obligations.TextStaysInRepertoire := by
  refine fun s t hstep => ⟨fun text htext => ?_, fun text htext => ?_⟩
  · obtain ⟨r, hout, rfl⟩ := outPorts_text htext
    obtain ⟨w, a, hr⟩ := step_out hstep hout
    obtain ⟨m, ops, hrender⟩ := datapathDecode_text hr
    rw [hrender]
    exact (inRepertoire_render _ m ops).mem_ascii
  · obtain ⟨a, rfl⟩ := outPorts_addrText_eq_hexL htext
    exact (inRepertoire_hexL a).mem_ascii

end Sys2Proof.Machine
end

section
/-! SUPPORT. What a decoded word's operands are, the contents of the ROMs and of the mnemonic table, the branch-target adder, and what
`Ok` and `Err` results hold (40_decode_datapath.md R94 to R99, R103, R104). -/

namespace Sys2Proof.Machine

/-! ### Operand records by class (R94, R98) -/

theorem operandsFmt_eq_rFormat_iff (ops : Operands) : operandsFmt ops = .rFormat ↔ operandsClass ops = .arith := by
  cases ops <;> simp [operandsFmt, operandsClass]

theorem operandsFmt_eq_iFormat_iff (ops : Operands) : operandsFmt ops = .iFormat ↔ operandsClass ops ≠ .arith := by
  cases ops <;> simp [operandsFmt, operandsClass]

/-- A target is present exactly in the BRANCH class (R103). -/
theorem operandsTarget_isSome_iff (ops : Operands) : (operandsTarget ops).isSome = true ↔ operandsClass ops = .branch := by
  cases ops <;> simp [operandsTarget, operandsClass]

theorem classOf_eq_branch_iff (m : Mnem) : classOf m = .branch ↔ m = .beq ∨ m = .bne := by
  cases m <;> simp [classOf]

@[simp] theorem operandsClass_operandsAt (i : Instr) (a : Word) : operandsClass (operandsAt i a) = classOf i.mnem := by
  cases i <;> rfl

/-! ### The operands of a decoded word -/

/-- The operand record of a class, straight from the word's fields and CUR_ADDR (R92 to R94, R99). -/
def operandsOfWord : OperandClass → Word → Word → Operands
  | .arith, w, _ => .arith (decodeR w)
  | .mem, w, _ => .mem (decodeI w)
  | .branch, w, a => .branch (decodeI w) (branchTarget a (immOf w))

/-- The instruction that a word decodes to renders the word's own fields: the selector that the instruction stands for is the one in the
word, and its signed immediate is the word's immediate field. -/
theorem operandsAt_of_decodeWord {roms : Roms} {w : Word} {i : Instr} (hd : decodeWord roms w = .instr i) (a : Word) :
    operandsAt i a = operandsOfWord (classOf i.mnem) w a := by
  by_cases hop : opcodeOf w = 0#6
  · rw [decodeWord_of_opcode_zero roms w hop] at hd
    repeat' split at hd
    all_goals cases hd <;> simp [operandsAt, operandsOfWord, Instr.mnem, classOf, decodeR, *]
  · rw [decodeWord_of_opcode_nonzero roms w hop] at hd
    repeat' split at hd
    all_goals cases hd <;> simp [operandsAt, operandsOfWord, Instr.mnem, classOf, decodeI, *]

/-- The decoded fields are those of the word's format (R103). -/
theorem operandsFields_operandsOfWord (c : OperandClass) (w a : Word) :
    operandsFields (operandsOfWord c w a) =
      if operandsFmt (operandsOfWord c w a) = .rFormat then .r (decodeR w) else .i (decodeI w) := by
  cases c <;> rfl

/-! ### A step on a word that decodes -/

/-- The step emits the `Ok` result of the decoded instruction (R101, R102). -/
theorem step_of_decodes {s : State} {p : InPorts} {rest : List InPorts} {i : Instr} (h : Presents s p rest)
    (hd : decodeWord s.roms p.wordIn = .instr i) :
    step s =
      .next (afterWord s rest (okResult s.cfg.naming i.mnem (operandsAt i (addressOf s p)) (addressOf s p) p.wordIn) s.halted) := by
  rw [step_of_instr h hd, exec_eq_afterWord h.inputs]

/-- All that the datapath can hold in an `Ok` result. -/
theorem datapathDecode_eq_ok {roms : Roms} {w a : Word} {n : Naming} {r : OkRecord} (h : datapathDecode roms w a n = .ok r) :
    ∃ i, decodeWord roms w = .instr i ∧ okResult n i.mnem (operandsAt i a) a w = .ok r := by
  rw [datapathDecode_eq] at h
  cases hd : decodeWord roms w with
  | instr i =>
    rw [hd] at h
    exact ⟨i, rfl, h⟩
  | unsupported kind code =>
    rw [hd] at h
    cases h

/-! ### The branch-target adder (R99) -/

/-- The adder in integers, modulo 2^32. -/
theorem branchTarget_toNat (a : Word) (imm16 : Imm) :
    ((branchTarget a imm16).toNat : Int) = ((a.toNat : Int) + 4 + 4 * signed16 imm16) % 2 ^ 32 := by
  have hoff := off32_toInt imm16
  rw [BitVec.toInt_eq_toNat_cond] at hoff
  simp only [branchTarget, BitVec.toNat_add, BitVec.toNat_ofNat]
  split at hoff <;> omega

theorem branchTarget_eq_add (a : Word) (imm16 : Imm) : branchTarget a imm16 = a + (4#32 + off32 imm16) :=
  BitVec.add_assoc a 4#32 (off32 imm16)

/-- A word with a branch opcode decodes to a branch (R71). -/
theorem decodeWord_of_branch_opcode (roms : Roms) {w : Word} (h : opcodeOf w = 0x04#6 ∨ opcodeOf w = 0x05#6) :
    ∃ i, decodeWord roms w = .instr i ∧ classOf i.mnem = .branch := by
  rcases h with h | h
  · obtain ⟨i, hd, hm⟩ := decodeWord_of_selects roms (m := .beq) h
    exact ⟨i, hd, by rw [hm]; rfl⟩
  · obtain ⟨i, hd, hm⟩ := decodeWord_of_selects roms (m := .bne) h
    exact ⟨i, hd, by rw [hm]; rfl⟩

/-- Settles O41: the offset is `4 * signed16` as an integer, and the target of a branch word's operands is the adder's. -/
theorem branchTargetArithmetic : Obligations.BranchTargetArithmetic := by
  refine ⟨branchTarget_toNat, fun a => ?_, by decide, by decide, fun s p rest hp hop => ?_⟩
  · have hback : 4#32 + off32 0xFFFF#16 = 0#32 := by decide
    have hnext : 4#32 + off32 0x0000#16 = 4#32 := by decide
    have hmax : 4#32 + off32 0x7FFF#16 = 131072#32 := by decide
    have hmin : 4#32 + off32 0x8000#16 = -131068#32 := by decide
    simp only [branchTarget_eq_add, hback, hnext, hmax, hmin, BitVec.add_zero, BitVec.sub_eq_add_neg, and_self]
  · obtain ⟨i, hd, hclass⟩ := decodeWord_of_branch_opcode s.roms hop
    refine ⟨_, _, step_of_decodes hp hd, rfl, ?_⟩
    rw [operandsAt_of_decodeWord hd, hclass]
    rfl

/-! ### What an `Ok` result holds (R103) -/

/-- Settles O50: the record is projected from the operands of the decoded instruction, which are those of the word's own fields. -/
theorem okRecordContents : Obligations.OkRecordContents := by
  rintro s p rest hp ⟨i, hd⟩
  have hfields : operandsFields (operandsAt i (addressOf s p)) =
      if operandsFmt (operandsAt i (addressOf s p)) = .rFormat then .r (decodeR p.wordIn) else .i (decodeI p.wordIn) := by
    rw [operandsAt_of_decodeWord hd, ← operandsFields_operandsOfWord]
  refine ⟨_, _, step_of_decodes hp hd, rfl, rfl, rfl, fun hr => ?_, fun hi => ?_, ?_,
    ⟨operandsAt i (addressOf s p), rfl, rfl, operandsClass_operandsAt _ _, rfl⟩, rfl, rfl⟩
  · exact hfields.trans (if_pos hr)
  · have hne : operandsFmt (operandsAt i (addressOf s p)) ≠ .rFormat := fun hr => nomatch hr.symm.trans hi
    exact hfields.trans (if_neg hne)
  · rw [operandsTarget_isSome_iff, operandsClass_operandsAt, classOf_eq_branch_iff]

/-! ### What an `Err` result holds (R104) -/

/-- Settles O51: the step presents the `Err` record, and its ports are the silent ones but for the error's own. -/
theorem errPortsCarryNoDecode : Obligations.ErrPortsCarryNoDecode :=
  fun _ _ _ _ _ hp hd => ⟨_, step_of_unsupported hp hd, rfl, rfl⟩

/-! ### ROM contents (R95, R96) -/

theorem romRead_rRomContents (k : Code) : romRead rRomContents k =
    if k = 0x20#6 then ⟨true, 0#4⟩ else if k = 0x22#6 then ⟨true, 1#4⟩ else if k = 0x24#6 then ⟨true, 2#4⟩
    else if k = 0x25#6 then ⟨true, 3#4⟩ else if k = 0x2A#6 then ⟨true, 4#4⟩ else ⟨false, 0#4⟩ := by
  revert k; decide

theorem romRead_iRomContents (k : Code) : romRead iRomContents k =
    if k = 0x04#6 then ⟨true, 7#4⟩ else if k = 0x05#6 then ⟨true, 8#4⟩ else if k = 0x23#6 then ⟨true, 5#4⟩
    else if k = 0x2B#6 then ⟨true, 6#4⟩ else ⟨false, 0#4⟩ := by
  revert k; decide

theorem romOf_length (rows : List (Nat × BitVec 4)) : (romOf rows).length = 64 := by
  simp [romOf]

/-- Settles O33: the state's ROMs are the fixed contents, which are read index by index. -/
theorem romContentsOfEveryState : Obligations.RomContentsOfEveryState := by
  intro s
  rw [s.roms.r_fixed, s.roms.i_fixed]
  exact ⟨romOf_length _, romOf_length _, romRead_rRomContents, romRead_iRomContents⟩

/-! ### Mnemonic ids (R98) -/

theorem mnemId_le (m : Mnem) : (mnemId m).toNat ≤ 8 := by
  cases m <;> decide

/-- The `mnem` port carries the id of a presented `Ok` result's mnemonic, and nothing else (R34, R104). -/
theorem outPorts_mnem {t : State} {id : BitVec 4} (h : t.outPorts.mnem = some id) :
    ∃ r, t.out = some (.ok r) ∧ mnemId r.mnem = id := by
  unfold State.outPorts at h
  split at h
  · cases h
  · next r hout => exact ⟨r, hout, Option.some.inj h⟩
  · cases h

/-- The word of an `Ok` result has the selecting fields of its mnemonic, and its format is the mnemonic's (R98). -/
theorem datapathDecode_selects {roms : Roms} {w a : Word} {n : Naming} {r : OkRecord} (h : datapathDecode roms w a n = .ok r) :
    Selects r.mnem r.word ∧ (r.fmt = .rFormat ↔ classOf r.mnem = .arith) ∧ (r.fmt = .iFormat ↔ classOf r.mnem ≠ .arith) := by
  obtain ⟨i, hd, hr⟩ := datapathDecode_eq_ok h
  cases hr
  refine ⟨selects_of_decodeWord hd, ?_, ?_⟩
  · rw [operandsFmt_eq_rFormat_iff, operandsClass_operandsAt]
  · rw [operandsFmt_eq_iFormat_iff, operandsClass_operandsAt]

/-- Settles O34: the table by evaluation, the `mnem` port from the ids of the nine mnemonics, and the selectors from the datapath's
results. -/
theorem mnemonicIdsAndClasses : Obligations.MnemonicIdsAndClasses := by
  refine ⟨by decide, rfl, by decide, fun s t id _ hid => ?_, fun s t r hstep hout => ?_⟩
  · obtain ⟨r, -, rfl⟩ := outPorts_mnem hid
    exact mnemId_le r.mnem
  · obtain ⟨w, a, hr⟩ := step_out hstep hout
    obtain ⟨hsel, hfmtR, hfmtI⟩ := datapathDecode_selects hr
    refine ⟨hfmtR, fun hfmt => ?_, fun hfmt => ?_⟩
    · rw [Selects, if_pos (hfmtR.mp hfmt)] at hsel
      obtain ⟨-, hfunct⟩ := hsel
      exact hfunct
    · rw [Selects, if_neg (hfmtI.mp hfmt)] at hsel
      exact hsel

end Sys2Proof.Machine
end

section
/-! SUPPORT. The R-format family: what a meaning and a step emit for an ARITH mnemonic, and the worked examples (41_r_format.md R110 to
R114). -/

namespace Sys2Proof.Machine

/-! ### The `Ok` result of the ARITH class (R75, R103) -/

/-- The `Ok` result of an ARITH mnemonic, its text spelt as R110 to R114 spell it: the space belongs to the mnemonic. -/
def arithResult (n : Naming) (m : Mnem) (d : DecodedR) (a w : Word) : Result :=
  .ok { addr := a, word := w, fmt := .rFormat, mnem := m, fields := .r d, target := none,
        text := (mnemText m ++ " ".toList) ++ reg n d.rd ++ ", ".toList ++ reg n d.rs ++ ", ".toList ++ reg n d.rt }

theorem okResult_arith (n : Naming) (m : Mnem) (d : DecodedR) (a w : Word) :
    okResult n m (.arith d) a w = arithResult n m d a w := by
  simp only [okResult, arithResult, operandsFmt, operandsFields, operandsTarget, render_arith, show " ".toList = [' '] from rfl,
    List.append_assoc, List.cons_append, List.nil_append]

/-! ### A meaning and a step of the ARITH class -/

/-- A meaning whose operands are ARITH fields emits the result of those fields and changes nothing else. -/
theorem exec_of_arith {i : Instr} {d : DecodedR} (hops : ∀ a, operandsAt i a = .arith d) {s : State} {p : InPorts}
    {rest : List InPorts} (h : s.inputs = p :: rest) :
    exec i s = .next (afterWord s rest (arithResult s.cfg.naming i.mnem d (addressOf s p) p.wordIn) s.halted) := by
  rw [exec_eq_afterWord h, hops, okResult_arith]

/-- A step on a word that matches an ARITH row emits the result of the word's own fields, its function code being the row's (R62, R70). -/
theorem step_of_arith_mask {m : Mnem} (hm : classOf m = .arith) {s : State} {p : InPorts} {rest : List InPorts}
    (h : Presents s p rest) (hw : p.wordIn &&& 0xFC00003F#32 = placeField (selectorOf m) 0) :
    step s =
      .next (afterWord s rest
        (arithResult s.cfg.naming m
          { rs := rsOf p.wordIn, rt := rtOf p.wordIn, rd := rdOf p.wordIn, funct := selectorOf m } (addressOf s p) p.wordIn)
        s.halted) := by
  obtain ⟨hop, hfunct⟩ := fields_of_mask _ hw
  have hsel : Selects m p.wordIn := by rw [Selects, if_pos hm]; exact ⟨hop, hfunct⟩
  obtain ⟨i, hd, rfl⟩ := decodeWord_of_selects s.roms hsel
  rw [step_of_decodes h hd, operandsAt_of_decodeWord hd, hm, operandsOfWord, okResult_arith, decodeR, hfunct]

/-! ### Worked examples and unsupported words -/

/-- A word renders as the instruction that it decodes to, in both naming modes, when no address enters its operands. -/
theorem rendersAs_of_decodeWord {w : Word} {numeric abi : String} (i : Instr) (hd : decodeWord builtRoms w = .instr i)
    (hnumeric : ∀ a, render .numeric i.mnem (operandsAt i a) = numeric.toList)
    (habi : ∀ a, render .abi i.mnem (operandsAt i a) = abi.toList) : RendersAs w numeric abi := by
  rintro s p rest hp rfl
  refine ⟨_, _, step_of_decodes hp (by rw [State.roms_eq, hd]), rfl, congrArg some ?_⟩
  cases s.cfg.naming with
  | numeric => exact hnumeric _
  | abi => exact habi _

/-- A word that the decoder rejects raises `UnsupportedEncoding` wherever it is presented (R141, R145). -/
theorem raisesUnsupported_of_decodeWord {w : Word} {kind : ErrKind} {code : Code}
    (hd : decodeWord builtRoms w = .unsupported kind code) : RaisesUnsupported w kind code := by
  rintro s p rest hp rfl
  exact step_of_unsupported hp (by rw [State.roms_eq, hd])

/-! ### The statements -/

/-- Settles O1: the ARITH meaning and step at `add`, and each example from the instruction that its word decodes to. -/
theorem addDecodesAndRenders : Obligations.AddDecodesAndRenders := by
  refine ⟨fun _ _ _ _ _ _ _ h => exec_of_arith (fun _ => rfl) h, fun _ _ _ => step_of_arith_mask (m := .add) rfl, ?_, ?_, ?_, ?_⟩
  · exact rendersAs_of_decodeWord (.add 9 25 17 0) (by decide) (fun _ => rfl) (fun _ => rfl)
  · exact rendersAs_of_decodeWord (.add 5 5 5 0) (by decide) (fun _ => rfl) (fun _ => rfl)
  · exact rendersAs_of_decodeWord (.add 0 0 0 0) (by decide) (fun _ => rfl) (fun _ => rfl)
  · exact rendersAs_of_decodeWord (.add 1 2 3 31) (by decide) (fun _ => rfl) (fun _ => rfl)

/-- Settles O2: the ARITH meaning and step at `sub`, and each example from the instruction that its word decodes to. -/
theorem subDecodesAndRenders : Obligations.SubDecodesAndRenders := by
  refine ⟨fun _ _ _ _ _ _ _ h => exec_of_arith (fun _ => rfl) h, fun _ _ _ => step_of_arith_mask (m := .sub) rfl, ?_, ?_, ?_, ?_⟩
  · exact rendersAs_of_decodeWord (.sub 9 25 17 0) (by decide) (fun _ => rfl) (fun _ => rfl)
  · exact rendersAs_of_decodeWord (.sub 5 5 5 0) (by decide) (fun _ => rfl) (fun _ => rfl)
  · exact rendersAs_of_decodeWord (.sub 31 31 31 0) (by decide) (fun _ => rfl) (fun _ => rfl)
  · exact rendersAs_of_decodeWord (.sub 1 2 3 31) (by decide) (fun _ => rfl) (fun _ => rfl)

/-- Settles O3: the ARITH meaning and step at `and`, and each example from the instruction that its word decodes to. -/
theorem andDecodesAndRenders : Obligations.AndDecodesAndRenders := by
  refine ⟨fun _ _ _ _ _ _ _ h => exec_of_arith (fun _ => rfl) h, fun _ _ _ => step_of_arith_mask (m := .and) rfl, ?_, ?_, ?_⟩
  · exact rendersAs_of_decodeWord (.and 2 9 3 0) (by decide) (fun _ => rfl) (fun _ => rfl)
  · exact rendersAs_of_decodeWord (.and 0 0 0 0) (by decide) (fun _ => rfl) (fun _ => rfl)
  · exact rendersAs_of_decodeWord (.and 1 2 3 31) (by decide) (fun _ => rfl) (fun _ => rfl)

/-- Settles O4: the ARITH meaning and step at `or`, and each example from the instruction that its word decodes to. -/
theorem orDecodesAndRenders : Obligations.OrDecodesAndRenders := by
  refine ⟨fun _ _ _ _ _ _ _ h => exec_of_arith (fun _ => rfl) h, fun _ _ _ => step_of_arith_mask (m := .or) rfl, ?_, ?_⟩
  · exact rendersAs_of_decodeWord (.or 9 25 17 0) (by decide) (fun _ => rfl) (fun _ => rfl)
  · exact rendersAs_of_decodeWord (.or 4 0 4 0) (by decide) (fun _ => rfl) (fun _ => rfl)

/-- Settles O5: the ARITH meaning and step at `slt`, the examples likewise; function code 0x2B names no mnemonic in R_ROM. -/
theorem sltDecodesAndRenders : Obligations.SltDecodesAndRenders := by
  refine ⟨fun _ _ _ _ _ _ _ h => exec_of_arith (fun _ => rfl) h, fun _ _ _ => step_of_arith_mask (m := .slt) rfl, ?_, ?_, ?_⟩
  · exact rendersAs_of_decodeWord (.slt 8 0 10 0) (by decide) (fun _ => rfl) (fun _ => rfl)
  · exact rendersAs_of_decodeWord (.slt 1 2 3 31) (by decide) (fun _ => rfl) (fun _ => rfl)
  · intro w hw
    obtain ⟨hop, hfunct⟩ := fields_of_mask 0x2B#6 hw
    refine raisesUnsupported_of_decodeWord ?_
    rw [decodeWord_of_opcode_zero builtRoms w hop, hfunct]
    rfl

end Sys2Proof.Machine
end

section
/-! SUPPORT. The load and store family: what a meaning and a step emit for a MEM mnemonic, and the worked examples (42_load_store.md
R120, R121). -/

namespace Sys2Proof.Machine

/-! ### The `Ok` result of the MEM class (R76, R103) -/

/-- The `Ok` result of a MEM mnemonic whose displacement reads as `v`, its text spelt as R120 and R121 spell it: the space belongs to
the mnemonic. -/
def memResult (n : Naming) (m : Mnem) (d : DecodedI) (v : Int) (a w : Word) : Result :=
  .ok { addr := a, word := w, fmt := .iFormat, mnem := m, fields := .i d, target := none,
        text := (mnemText m ++ " ".toList) ++ reg n d.rt ++ ", ".toList ++ sdec v ++ "(".toList ++ reg n d.rs ++ ")".toList }

theorem okResult_mem {d : DecodedI} {v : Int} (hv : signed16 d.imm16 = v) (n : Naming) (m : Mnem) (a w : Word) :
    okResult n m (.mem d) a w = memResult n m d v a w := by
  simp only [okResult, memResult, operandsFmt, operandsFields, operandsTarget, render_mem, hv, show " ".toList = [' '] from rfl,
    List.append_assoc, List.cons_append, List.nil_append]

/-! ### A meaning and a step of the MEM class -/

/-- A meaning whose operands are MEM fields emits the result of those fields and changes nothing else. -/
theorem exec_of_mem {i : Instr} {d : DecodedI} {v : Int} (hops : ∀ a, operandsAt i a = .mem d) (hv : signed16 d.imm16 = v)
    {s : State} {p : InPorts} {rest : List InPorts} (h : s.inputs = p :: rest) :
    exec i s = .next (afterWord s rest (memResult s.cfg.naming i.mnem d v (addressOf s p) p.wordIn) s.halted) := by
  rw [exec_eq_afterWord h, hops, okResult_mem hv]

/-- A step on a word that matches a MEM row emits the result of the word's own fields, its opcode being the row's (R64, R71). -/
theorem step_of_mem_mask {m : Mnem} (hm : classOf m = .mem) {s : State} {p : InPorts} {rest : List InPorts}
    (h : Presents s p rest) (hw : p.wordIn &&& 0xFC000000#32 = placeField (selectorOf m) 26) :
    step s =
      .next (afterWord s rest
        (memResult s.cfg.naming m
          { opcode := selectorOf m, rs := rsOf p.wordIn, rt := rtOf p.wordIn, imm16 := immOf p.wordIn } (signed16 (immOf p.wordIn))
          (addressOf s p) p.wordIn)
        s.halted) := by
  have hop : opcodeOf p.wordIn = selectorOf m := opcodeOf_of_mask _ hw
  have hsel : Selects m p.wordIn := by rw [Selects, if_neg (by rw [hm]; decide)]; exact hop
  obtain ⟨i, hd, rfl⟩ := decodeWord_of_selects s.roms hsel
  rw [step_of_decodes h hd, operandsAt_of_decodeWord hd, hm, operandsOfWord, okResult_mem rfl, decodeI, hop]

/-! ### The statements -/

/-- Settles O6: the MEM meaning and step at `lw`, and each example from the instruction that its word decodes to. -/
theorem lwDecodesAndRenders : Obligations.LwDecodesAndRenders := by
  refine ⟨fun _ _ _ _ _ _ hwf h => exec_of_mem (fun _ => rfl) (signed16_imm16Of hwf) h,
    fun _ _ _ => step_of_mem_mask (m := .lw) rfl, ?_, ?_, ?_, ?_, ?_, ?_⟩
  · exact rendersAs_of_decodeWord (.lw 9 17 1234) (by decide) (fun _ => rfl) (fun _ => rfl)
  · exact rendersAs_of_decodeWord (.lw 9 17 (-1234)) (by decide) (fun _ => rfl) (fun _ => rfl)
  · exact rendersAs_of_decodeWord (.lw 29 31 (-32768)) (by decide) (fun _ => rfl) (fun _ => rfl)
  · exact rendersAs_of_decodeWord (.lw 0 0 0) (by decide) (fun _ => rfl) (fun _ => rfl)
  · exact rendersAs_of_decodeWord (.lw 31 31 32767) (by decide) (fun _ => rfl) (fun _ => rfl)
  · exact rendersAs_of_decodeWord (.lw 4 8 (-1)) (by decide) (fun _ => rfl) (fun _ => rfl)

/-- Settles O7: the MEM meaning and step at `sw`, and each example from the instruction that its word decodes to. -/
theorem swDecodesAndRenders : Obligations.SwDecodesAndRenders := by
  refine ⟨fun _ _ _ _ _ _ hwf h => exec_of_mem (fun _ => rfl) (signed16_imm16Of hwf) h,
    fun _ _ _ => step_of_mem_mask (m := .sw) rfl, ?_, ?_, ?_, ?_, ?_⟩
  · exact rendersAs_of_decodeWord (.sw 9 17 1234) (by decide) (fun _ => rfl) (fun _ => rfl)
  · exact rendersAs_of_decodeWord (.sw 31 31 32767) (by decide) (fun _ => rfl) (fun _ => rfl)
  · exact rendersAs_of_decodeWord (.sw 4 8 (-1)) (by decide) (fun _ => rfl) (fun _ => rfl)
  · exact rendersAs_of_decodeWord (.sw 29 31 (-32768)) (by decide) (fun _ => rfl) (fun _ => rfl)
  · exact rendersAs_of_decodeWord (.sw 0 0 0) (by decide) (fun _ => rfl) (fun _ => rfl)

end Sys2Proof.Machine
end

section
/-! SUPPORT. The branch family: what a meaning and a step emit for a BRANCH mnemonic, and the worked examples (43_branch.md R130,
R131). -/

namespace Sys2Proof.Machine

/-! ### The record of the BRANCH class (R77, R103) -/

/-- The `Ok` record of a BRANCH mnemonic with its target, its text spelt as R130 and R131 spell it: the space belongs to the mnemonic. -/
def branchRecord (n : Naming) (m : Mnem) (d : DecodedI) (target a w : Word) : OkRecord :=
  { addr := a, word := w, fmt := .iFormat, mnem := m, fields := .i d, target := some target,
    text := (mnemText m ++ " ".toList) ++ reg n d.rs ++ ", ".toList ++ reg n d.rt ++ ", address ".toList ++ hexU target }

theorem okResult_branch (n : Naming) (m : Mnem) (d : DecodedI) (target a w : Word) :
    okResult n m (.branch d target) a w = .ok (branchRecord n m d target a w) := by
  simp only [okResult, branchRecord, operandsFmt, operandsFields, operandsTarget, render_branch, show " ".toList = [' '] from rfl,
    List.append_assoc, List.cons_append, List.nil_append]

/-! ### The target from the signed immediate (R69, R99) -/

theorem off32_eq_ofInt (v : Imm) : off32 v = BitVec.ofInt 32 (4 * signed16 v) := by
  rw [← off32_toInt, BitVec.ofInt_toInt]

/-- The adder on the bit pattern of a signed immediate in range adds 4 and four times the immediate, modulo 2^32. -/
theorem branchTarget_imm16Of {simm : Int} (h : simmInRange simm = true) (a : Word) :
    branchTarget a (imm16Of simm) = a + 4#32 + BitVec.ofInt 32 (4 * simm) := by
  rw [branchTarget, off32_eq_ofInt, signed16_imm16Of h]

/-! ### A meaning and a step of the BRANCH class -/

/-- A meaning whose operands are BRANCH fields with the adder's target emits the record of those fields and changes nothing else. -/
theorem exec_of_branch {i : Instr} {d : DecodedI} {simm : Int} (hwf : simmInRange simm = true)
    (hops : ∀ a, operandsAt i a = .branch d (branchTarget a (imm16Of simm))) {s : State} {p : InPorts} {rest : List InPorts}
    (h : s.inputs = p :: rest) :
    exec i s =
      .next (afterWord s rest
        (.ok (branchRecord s.cfg.naming i.mnem d (addressOf s p + 4#32 + BitVec.ofInt 32 (4 * simm)) (addressOf s p) p.wordIn))
        s.halted) := by
  rw [exec_eq_afterWord h, hops, branchTarget_imm16Of hwf, okResult_branch]

/-- A step on a word that matches a BRANCH row emits the record of the word's own fields and the adder's target, its opcode being the
row's (R64, R71). -/
theorem step_of_branch_mask {m : Mnem} (hm : classOf m = .branch) {s : State} {p : InPorts} {rest : List InPorts}
    (h : Presents s p rest) (hw : p.wordIn &&& 0xFC000000#32 = placeField (selectorOf m) 26) :
    step s =
      .next (afterWord s rest
        (.ok (branchRecord s.cfg.naming m
          { opcode := selectorOf m, rs := rsOf p.wordIn, rt := rtOf p.wordIn, imm16 := immOf p.wordIn }
          (branchTarget (addressOf s p) (immOf p.wordIn)) (addressOf s p) p.wordIn))
        s.halted) := by
  have hop : opcodeOf p.wordIn = selectorOf m := opcodeOf_of_mask _ hw
  have hsel : Selects m p.wordIn := by rw [Selects, if_neg (by rw [hm]; decide)]; exact hop
  obtain ⟨i, hd, rfl⟩ := decodeWord_of_selects s.roms hsel
  rw [step_of_decodes h hd, operandsAt_of_decodeWord hd, hm, operandsOfWord, okResult_branch, decodeI, hop]

/-- After a BRANCH record is presented, the `has_target` port is 1 (R34). -/
theorem outPorts_hasTarget_of_branch {m : Mnem} (hm : classOf m = .branch) {s : State} {rest : List InPorts} {n : Naming}
    {d : DecodedI} {target a w : Word} {halted : Bool} :
    (afterWord s rest (.ok (branchRecord n m d target a w)) halted).outPorts.hasTarget = some true :=
  congrArg some (decide_eq_true hm)

/-! ### Worked examples -/

/-- A word at an address renders as the branch that it decodes to, in both naming modes. -/
theorem branchRendersAs_of_decodeWord {a w target : Word} {numeric abi : String} (i : Instr)
    (hd : decodeWord builtRoms w = .instr i) (htarget : operandsTarget (operandsAt i a) = some target)
    (hnumeric : render .numeric i.mnem (operandsAt i a) = numeric.toList)
    (habi : render .abi i.mnem (operandsAt i a) = abi.toList) : BranchRendersAs a w target numeric abi := by
  rintro s p rest hp rfl rfl
  refine ⟨_, _, step_of_decodes hp (by rw [State.roms_eq, hd]), rfl, htarget, ?_⟩
  cases s.cfg.naming with
  | numeric => exact hnumeric
  | abi => exact habi

/-! ### The statements -/

/-- Settles O8: the BRANCH meaning and step at `beq`, and each example from the instruction that its word decodes to. -/
theorem beqDecodesAndRenders : Obligations.BeqDecodesAndRenders := by
  refine ⟨fun _ _ _ _ _ _ hwf h => exec_of_branch hwf (fun _ => rfl) h, fun _ _ _ h hw => ?_, ?_, ?_, ?_, ?_, ?_⟩
  · exact ⟨_, _, step_of_branch_mask (m := .beq) rfl h hw, rfl, rfl, outPorts_hasTarget_of_branch rfl⟩
  · exact branchRendersAs_of_decodeWord (.beq 17 9 0) (by decide) rfl (by decide) (by decide)
  · exact branchRendersAs_of_decodeWord (.beq 1 2 (-1)) (by decide) rfl (by decide) (by decide)
  · exact branchRendersAs_of_decodeWord (.beq 1 2 32767) (by decide) rfl (by decide) (by decide)
  · exact branchRendersAs_of_decodeWord (.beq 1 2 (-32768)) (by decide) rfl (by decide) (by decide)
  · exact branchRendersAs_of_decodeWord (.beq 3 4 0) (by decide) rfl (by decide) (by decide)

/-- Settles O9: the BRANCH meaning and step at `bne`, and each example from the instruction that its word decodes to. -/
theorem bneDecodesAndRenders : Obligations.BneDecodesAndRenders := by
  refine ⟨fun _ _ _ _ _ _ hwf h => exec_of_branch hwf (fun _ => rfl) h, fun _ _ _ h hw => ?_, ?_, ?_, ?_, ?_, ?_, ?_, ?_⟩
  · exact ⟨_, _, step_of_branch_mask (m := .bne) rfl h hw, rfl, rfl, outPorts_hasTarget_of_branch rfl⟩
  · exact branchRendersAs_of_decodeWord (.bne 17 9 0) (by decide) rfl (by decide) (by decide)
  · exact branchRendersAs_of_decodeWord (.bne 0 0 (-2)) (by decide) rfl (by decide) (by decide)
  · exact branchRendersAs_of_decodeWord (.bne 8 0 (-4)) (by decide) rfl (by decide) (by decide)
  · exact branchRendersAs_of_decodeWord (.bne 1 2 (-1)) (by decide) rfl (by decide) (by decide)
  · exact branchRendersAs_of_decodeWord (.bne 1 2 32767) (by decide) rfl (by decide) (by decide)
  · exact branchRendersAs_of_decodeWord (.bne 1 2 (-32768)) (by decide) rfl (by decide) (by decide)
  · exact branchRendersAs_of_decodeWord (.bne 3 4 0) (by decide) rfl (by decide) (by decide)

end Sys2Proof.Machine
end

section
/-! SUPPORT. The block's one exception: which words raise it and with which cause, what the error ports carry, and how a run goes on
after it, strict or not (60_exceptions.md R140 to R147). -/

namespace Sys2Proof.Machine

/-! ### The two causes (R141) -/

/-- The word raises `UnsupportedEncoding` with this cause: its selecting field is none of the repertoire's. -/
def Raises : ErrKind → Word → Prop
  | .opcode, w => opcodeOf w ≠ 0#6 ∧ opcodeOf w ∉ [0x04#6, 0x05#6, 0x23#6, 0x2B#6]
  | .funct, w => opcodeOf w = 0#6 ∧ functOf w ∉ [0x20#6, 0x22#6, 0x24#6, 0x25#6, 0x2A#6]

/-- The code that a cause reports. -/
def causeCode : ErrKind → Word → Code
  | .opcode, w => opcodeOf w
  | .funct, w => functOf w

theorem decodeWord_of_raises (roms : Roms) {kind : ErrKind} {w : Word} (h : Raises kind w) :
    decodeWord roms w = .unsupported kind (causeCode kind w) := by
  cases kind with
  | opcode =>
    obtain ⟨hop, hmem⟩ := h
    obtain ⟨-, hdecode⟩ := formatFixedByOpcode
    exact hdecode roms w ((classify_eq_iFormat_iff w).mpr hop) hmem
  | funct =>
    obtain ⟨hop, hmem⟩ := h
    simp only [List.mem_cons, List.not_mem_nil, or_false, not_or] at hmem
    obtain ⟨h20, h22, h24, h25, h2A⟩ := hmem
    rw [decodeWord_of_opcode_zero roms w hop, if_neg h20, if_neg h22, if_neg h24, if_neg h25, if_neg h2A]
    rfl

theorem raises_of_decodeWord {roms : Roms} {w : Word} {kind : ErrKind} {code : Code}
    (h : decodeWord roms w = .unsupported kind code) : Raises kind w ∧ code = causeCode kind w := by
  by_cases hop : opcodeOf w = 0#6
  · rw [decodeWord_of_opcode_zero roms w hop] at h
    repeat' split at h
    all_goals cases h
    exact ⟨⟨hop, by simp [*]⟩, rfl⟩
  · rw [decodeWord_of_opcode_nonzero roms w hop] at h
    repeat' split at h
    all_goals cases h
    exact ⟨⟨hop, by simp [*]⟩, rfl⟩

/-- The result of a word that raises a cause is the record of R142. -/
theorem datapathDecode_of_raises (roms : Roms) {kind : ErrKind} {w : Word} (h : Raises kind w) (a : Word) (n : Naming) :
    datapathDecode roms w a n = .err { addr := a, word := w, kind := kind, code := causeCode kind w } := by
  rw [datapathDecode_eq, decodeWord_of_raises roms h]

/-- No other word's result is an `Err`. -/
theorem raises_of_datapathDecode {roms : Roms} {w a : Word} {n : Naming} {e : ErrRecord} (h : datapathDecode roms w a n = .err e) :
    Raises e.kind w := by
  rw [datapathDecode_eq] at h
  cases hd : decodeWord roms w with
  | instr i =>
    rw [hd] at h
    cases h
  | unsupported kind code =>
    rw [hd] at h
    cases h
    obtain ⟨hraises, -⟩ := raises_of_decodeWord hd
    exact hraises

theorem datapathDecode_isErr_iff_raises (roms : Roms) (w a : Word) (n : Naming) :
    (datapathDecode roms w a n).isErr = true ↔ Raises .opcode w ∨ Raises .funct w := by
  rw [datapathDecode_isErr_iff]
  constructor
  · rintro ⟨kind, code, hd⟩
    obtain ⟨hraises, -⟩ := raises_of_decodeWord hd
    cases kind with
    | opcode => exact .inl hraises
    | funct => exact .inr hraises
  · rintro (h | h)
    · exact ⟨_, _, decodeWord_of_raises roms h⟩
    · exact ⟨_, _, decodeWord_of_raises roms h⟩

/-! ### The error ports (R34, R104) -/

theorem outPorts_ok {t : State} {r : Result} (h : t.out = some r) : t.outPorts.ok = some (!r.isErr) := by
  cases r <;> simp [State.outPorts, h, okPorts, errPorts]

/-- Distinct causes have distinct `err_kind` codes (R141). -/
theorem errKindBit_inj {k k' : ErrKind} : errKindBit k = errKindBit k' ↔ k = k' := by
  cases k <;> cases k' <;> decide

/-- The `err_kind` port carries a cause's code exactly when the presented result is an `Err` of that cause. -/
theorem outPorts_errKind_iff {t : State} {r : Result} (h : t.out = some r) (kind : ErrKind) :
    t.outPorts.errKind = some (errKindBit kind) ↔ ∃ e, r = .err e ∧ e.kind = kind := by
  cases r with
  | ok r => simp [State.outPorts, h, okPorts]
  | err e => simp [State.outPorts, h, errPorts, errKindBit_inj]

theorem outPorts_errKind_iff_raises {t : State} {roms : Roms} {w a : Word} {n : Naming}
    (h : t.out = some (datapathDecode roms w a n)) (kind : ErrKind) :
    t.outPorts.errKind = some (errKindBit kind) ↔ Raises kind w := by
  rw [outPorts_errKind_iff h]
  constructor
  · rintro ⟨e, he, rfl⟩
    exact raises_of_datapathDecode he
  · exact fun hraises => ⟨_, datapathDecode_of_raises roms hraises a n, rfl⟩

theorem outPorts_errCode_of_raises {t : State} {roms : Roms} {w a : Word} {n : Naming} {kind : ErrKind}
    (h : t.out = some (datapathDecode roms w a n)) (hraises : Raises kind w) :
    t.outPorts.errCode = some (causeCode kind w) := by
  rw [datapathDecode_of_raises roms hraises] at h
  simp [State.outPorts, h, errPorts]

/-! ### Going on after a word -/

/-- Out of strict mode no result changes HALTED (R146). -/
theorem haltedAfter_of_not_strict {s : State} (h : s.cfg.strict = false) (r : Result) : haltedAfter s r = s.halted := by
  simp [haltedAfter, h]

/-- A word that does not leave the block halted is followed by the next one. -/
theorem presents_consume {s : State} {q : InPorts} {rest : List InPorts} {r : Result} (hh : haltedAfter s r = false)
    (hr : q.rst = false) (hv : q.inValid = true) : Presents (s.consume (q :: rest) r) q rest :=
  ⟨rfl, hr, hv, hh⟩

/-- A halted block has no step on a presented word (R107). -/
theorem step_of_halted {s : State} {p : InPorts} {rest : List InPorts} (h : s.inputs = p :: rest) (hr : p.rst = false)
    (hv : p.inValid = true) (hh : s.halted = true) : step s = .fault .halted := by
  rw [step, fetch_halted h hr hv hh]

/-- A run is its first `m` steps and then the steps from the state that those answer. -/
theorem run_add_of_next {m : Nat} {s t : State} (h : Host.Core.run Sys2Proof.core m s = .next t) (n : Nat) :
    Host.Core.run Sys2Proof.core (m + n) s = Host.Core.run Sys2Proof.core n t := by
  induction m generalizing s with
  | zero =>
    rw [run_zero] at h
    cases h
    rw [Nat.zero_add]
  | succ m ih =>
    obtain ⟨u, hstep, hrun⟩ := run_succ_next h
    rw [Nat.add_right_comm, run_of_next hstep, ih hrun]

/-- From `s` to `t` the words of `ps` were consumed, each with an `Ok` of its own, in order; `oks` are those results. -/
structure EmitsOks (s t : State) (ps : List InPorts) (oks : List Result) : Prop where
  halted : t.halted = s.halted
  cfg : t.cfg = s.cfg
  results : t.results = s.results ++ oks
  words : oks.map Result.word = ps.map InPorts.wordIn
  noErr : ∀ r ∈ oks, r.isErr = false

/-- One supported word more, before the others. -/
theorem EmitsOks.cons {s t : State} {p : InPorts} {ps rest : List InPorts} {r : Result} {oks : List Result} (hr : r.isErr = false)
    (hw : r.word = p.wordIn) (h : EmitsOks (afterWord s rest r s.halted) t ps oks) : EmitsOks s t (p :: ps) (r :: oks) where
  halted := h.halted
  cfg := h.cfg
  results := h.results.trans (List.append_assoc _ [r] oks)
  words := by rw [List.map_cons, List.map_cons, hw, h.words]
  noErr := List.forall_mem_cons.mpr ⟨hr, h.noErr⟩

/-- A running block, strict or not, answers a sequence of supported words with one `Ok` a word and runs on. -/
theorem run_of_supported {ps rest : List InPorts} {s : State} (hwords : AllWords ps) (hin : s.inputs = ps ++ rest)
    (hrunning : s.halted = false) (hsupported : ∀ p ∈ ps, ∃ i, decodeWord builtRoms p.wordIn = .instr i) :
    ∃ (t : State) (oks : List Result),
      Host.Core.run Sys2Proof.core ps.length s = .next t ∧ t.inputs = rest ∧ EmitsOks s t ps oks := by
  induction ps generalizing s with
  | nil => exact ⟨s, [], rfl, hin, rfl, rfl, (List.append_nil _).symm, rfl, fun _ h => nomatch h⟩
  | cons p ps ih =>
    obtain ⟨⟨hrst, hvalid⟩, hwords⟩ := List.forall_mem_cons.mp hwords
    obtain ⟨⟨i, hd⟩, hsupported⟩ := List.forall_mem_cons.mp hsupported
    have hp : Presents s p (ps ++ rest) := ⟨hin, hrst, hvalid, hrunning⟩
    obtain ⟨r, hr, hw, hstep⟩ : ∃ r : Result, r.isErr = false ∧ r.word = p.wordIn ∧
        step s = .next (afterWord s (ps ++ rest) r s.halted) :=
      ⟨_, rfl, rfl, step_of_decodes hp (by rw [State.roms_eq, hd])⟩
    obtain ⟨t, oks, hrun, hrest, hoks⟩ := ih (s := afterWord s (ps ++ rest) r s.halted) hwords rfl hrunning hsupported
    exact ⟨t, r :: oks, (run_of_next hstep _).trans hrun, hrest, hoks.cons hr hw⟩

/-! ### The statements -/

/-- Settles O27: either cause makes the decoder reject the word, and the step on a rejected word is the exception's. -/
theorem unsupportedWordEmitsErr : Obligations.UnsupportedWordEmitsErr := by
  refine fun s p rest hp => ⟨fun hop hmem => ?_, fun hop hmem => ?_⟩
  · exact step_of_unsupported hp (decodeWord_of_raises (kind := .opcode) s.roms ⟨hop, hmem⟩)
  · exact step_of_unsupported hp (decodeWord_of_raises (kind := .funct) s.roms ⟨hop, hmem⟩)

/-- Settles O28: the error ports are those of the datapath's result, which is an `Err` of a cause exactly when the word raises it. -/
theorem errRaisedExactlyWhen : Obligations.ErrRaisedExactlyWhen := by
  intro s p rest hp
  refine ⟨s.consume rest (datapathDecode s.roms p.wordIn (s.curAddr p) s.cfg.naming), step_of_presents hp, ?_⟩
  have hout := consume_out s rest (datapathDecode s.roms p.wordIn (s.curAddr p) s.cfg.naming)
  have hopcode := outPorts_errKind_iff_raises hout .opcode
  have hfunct := outPorts_errKind_iff_raises hout .funct
  refine ⟨?_, hopcode, hfunct, fun h => outPorts_errCode_of_raises hout (hopcode.mp h),
    fun h => outPorts_errCode_of_raises hout (hfunct.mp h), fun e he => ?_⟩
  · rw [outPorts_ok hout]
    refine congrArg (fun b => some !b) (Bool.eq_iff_iff.mpr ?_)
    simp only [Bool.or_eq_true, Bool.and_eq_true, decide_eq_true_iff]
    exact datapathDecode_isErr_iff_raises _ _ _ _
  · rw [(outPorts_errKind_iff he e.kind).mpr ⟨e, rfl, rfl⟩]
    cases e.kind <;> rfl

/-- Settles O29: with STRICT = 0 the first result, whatever it is, leaves the block running, so the next word is presented to it. -/
theorem continuesAfterErr : Obligations.ContinuesAfterErr := by
  intro s p q rest hp hstrict hr hv
  have hrunning : ∀ r, haltedAfter s r = false := fun r => (haltedAfter_of_not_strict hstrict r).trans hp.running
  refine ⟨_, _, _, _, step_of_presents hp, rfl, hrunning _, step_of_presents (presents_consume (hrunning _) hr hv), rfl, ?_, ?_, ?_⟩
  · rw [curAddr_eq _ q]
    rfl
  · rw [consume_results, consume_results, List.append_assoc]
    rfl
  · rw [consume_halted, haltedAfter_of_not_strict, consume_halted, hrunning]
    exact hstrict

/-- Settles O16: the supported words leave the block running, the unsupported one halts it, and a halted block has no step on a word. -/
theorem strictRunEndsAtFirstErr : Obligations.StrictRunEndsAtFirstErr := by
  intro s good more bad kind code hgood hbad hin hrunning hstrict hsupported hd
  rw [State.roms_eq] at hsupported hd
  obtain ⟨⟨hr, hv⟩, hmore⟩ := List.forall_mem_cons.mp hbad
  obtain ⟨t, oks, hrun, hrest, hoks⟩ := run_of_supported hgood hin hrunning hsupported
  have hp : Presents t bad more := ⟨hrest, hr, hv, hoks.halted.trans hrunning⟩
  have hstep := step_of_unsupported (kind := kind) (code := code) hp (by rw [State.roms_eq, hd])
  have hrunErr : Host.Core.run Sys2Proof.core (good.length + 1) s =
      .next (afterWord t more (.err { addr := addressOf t bad, word := bad.wordIn, kind := kind, code := code }) t.cfg.strict) := by
    rw [run_add_of_next hrun, run_of_next hstep, run_zero]
  have hhalted : t.cfg.strict = true := hoks.cfg ▸ hstrict
  refine ⟨_, _, oks, hrunErr, hhalted, rfl, rfl, rfl, rfl, rfl, congrArg (· ++ [_]) hoks.results, hoks.words, hoks.noErr,
    fun hne n => ?_⟩
  cases more with
  | nil => exact absurd rfl hne
  | cons q more =>
    obtain ⟨⟨hr', hv'⟩, -⟩ := List.forall_mem_cons.mp hmore
    rw [run_add_of_next hrunErr]
    exact run_of_fault (step_of_halted rfl hr' hv' hhalted) n

end Sys2Proof.Machine
end

section
/-! SUPPORT. What a step leaves of the configuration, and all that its result depends on (70_reset_and_hazards.md R167, R168). -/

namespace Sys2Proof.Machine

/-- The result of consuming the word on `p`, written out: the ROMs being fixed (R33), it is a function of the word, CUR_ADDR and the
naming mode, whatever else the state holds. -/
theorem stepResult_eq (s : State) (p : InPorts) :
    datapathDecode s.roms p.wordIn (s.curAddr p) s.cfg.naming =
      datapathDecode builtRoms p.wordIn (addressOf s p) s.cfg.naming := by
  rw [State.roms_eq, curAddr_eq]

/-- Settles O24: of the three kinds of step, a reset is excluded, and neither a hold nor a consumed word writes CFG. -/
theorem cfgConstantDuringRun : Obligations.CfgConstantDuringRun := by
  intro s t p rest hin hr hstep
  rcases step_next hstep with ⟨p', rest', hin', hr', -⟩ | ⟨_, rest', -, -, -, rfl⟩ | ⟨_, rest', -, rfl⟩
  · obtain ⟨rfl, -⟩ := List.cons.inj (hin.symm.trans hin')
    exact absurd hr' (Bool.eq_false_iff.mp hr)
  · exact holdState_cfg rest' s
  · exact consume_cfg s rest' _

/-- Settles O53: both steps emit the datapath's result in the step itself, and it takes the same arguments in both. -/
theorem resultDependsOnWordAddressNaming : Obligations.ResultDependsOnWordAddressNaming := by
  intro s s' p p' rest rest' hp hp' hword haddr hnaming
  have hresult : datapathDecode s'.roms p'.wordIn (s'.curAddr p') s'.cfg.naming =
      datapathDecode s.roms p.wordIn (s.curAddr p) s.cfg.naming := by
    rw [stepResult_eq, stepResult_eq, hword, haddr, hnaming]
  refine ⟨_, _, _, step_of_presents hp, step_of_presents hp', consume_out s rest _, ?_⟩
  rw [consume_out, hresult]

end Sys2Proof.Machine
end

section
/-! SUPPORT. Decoder and encoder are inverse to each other, the unsupported space, and the spec's own words (30_encoding.md R62 to R72,
40_decode_datapath.md R90 to R97). -/

namespace Sys2Proof

/-! ### Decoding an encoded instruction -/

/-- The decoder reads a well-formed instruction back from its word, format by format: the selecting field picks the row, and the other
fields are the operands. -/
theorem decodeWord_encode (roms : Roms) {i : Instr} (h : i.wellFormed = true) : decodeWord roms (encode i) = .instr i := by
  cases i with
  | add rs rt rd ignored | sub rs rt rd ignored | and rs rt rd ignored | or rs rt rd ignored | slt rs rt rd ignored =>
    rw [encode, decodeWord_of_opcode_zero roms _ (opcodeOf_encodeR _ _ _ _ _)]
    simp
  | lw rs rt simm | sw rs rt simm | beq rs rt simm | bne rs rt simm =>
    rw [encode, decodeWord_of_opcode_nonzero roms _ (by simp)]
    simp [signed16_imm16Of h]

@[simp] theorem tableWord_toNat (w : Word) : tableWord 32 w.toNat = w := by
  rw [tableWord, Nat.mod_eq_of_lt w.isLt, BitVec.ofNat_toNat, BitVec.setWidth_eq]

theorem decodeTableWord_eq_some_iff {nbits w : Nat} {i : Instr} :
    decodeTableWord nbits w = some i ↔ decodeWord builtRoms (tableWord nbits w) = .instr i := by
  rw [decodeTableWord]
  cases decodeWord builtRoms (tableWord nbits w) <;> simp

/-- Settles O37: the word's selecting field is the instruction's, and its other fields are the operands, the immediate being in range. -/
theorem decodeOfEncodeIsIdentity : Obligations.DecodeOfEncodeIsIdentity := by
  refine fun roms i hwf => ⟨decodeWord_encode roms hwf, decodeTableWord_eq_some_iff.mpr ?_⟩
  rw [tableWord_toNat]
  exact decodeWord_encode builtRoms hwf

/-! ### Encoding a decoded word -/

/-- An R-format word is put together again from its operand fields and the function code it was recognised by. -/
theorem encodeR_of_functOf {w : Word} {f : Code} (hop : opcodeOf w = 0#6) (hf : functOf w = f) :
    encodeR (rsOf w) (rtOf w) (rdOf w) (ignoredOf w) f = w := by
  rw [← hf, encodeR_fields w hop]

/-- An I-format word is put together again from its operand fields and the opcode it was recognised by. -/
theorem encodeI_of_opcodeOf {w : Word} {op : Code} (hop : opcodeOf w = op) :
    encodeI op (rsOf w) (rtOf w) (imm16Of (signed16 (immOf w))) = w := by
  rw [← hop, imm16Of_signed16, encodeI_fields]

theorem encode_of_decodeWord {roms : Roms} {w : Word} {i : Instr} (h : decodeWord roms w = .instr i) :
    i.wellFormed = true ∧ encode i = w := by
  by_cases hop : opcodeOf w = 0#6
  · rw [decodeWord_of_opcode_zero roms w hop] at h
    repeat' split at h
    all_goals cases h <;> exact ⟨rfl, encodeR_of_functOf hop ‹_›⟩
  · rw [decodeWord_of_opcode_nonzero roms w hop] at h
    repeat' split at h
    all_goals cases h <;> exact ⟨simmInRange_signed16 _, encodeI_of_opcodeOf ‹_›⟩

/-- Settles O38: each row that decodes takes the word's own fields, and together with the row's selector they are the whole word. -/
theorem encodeOfDecodeIsIdentity : Obligations.EncodeOfDecodeIsIdentity :=
  fun _ _ _ => encode_of_decodeWord

/-! ### Words of the spec -/

/-- Settles O39, word by word. -/
theorem specWordsDecode : Obligations.SpecWordsDecode :=
  ⟨by decide, by decide, by decide, by decide, by decide, by decide, by decide⟩

end Sys2Proof

namespace Sys2Proof.Machine

/-! ### The unsupported space (R72) -/

/-- The opcodes of R72 are those other than 0 that the I-format decoder does not know. -/
theorem unsupportedOpcode_iff : ∀ k : Code,
    unsupportedOpcode k.toNat = true ↔ k ≠ 0#6 ∧ k ∉ [0x04#6, 0x05#6, 0x23#6, 0x2B#6] := by
  decide

/-- The function codes of R72 are those that the R-format decoder does not know. -/
theorem unsupportedFunct_iff : ∀ k : Code,
    unsupportedFunct k.toNat = true ↔ k ∉ [0x20#6, 0x22#6, 0x24#6, 0x25#6, 0x2A#6] := by
  decide

/-- A word is rejected with a cause exactly when it raises it. -/
theorem decodeWord_unsupported_iff_raises (roms : Roms) (kind : ErrKind) (w : Word) :
    (∃ code, decodeWord roms w = .unsupported kind code) ↔ Raises kind w := by
  constructor
  · rintro ⟨code, hd⟩
    obtain ⟨hraises, -⟩ := raises_of_decodeWord hd
    exact hraises
  · exact fun hraises => ⟨_, decodeWord_of_raises roms hraises⟩

theorem code_of_decodeWord {roms : Roms} {w : Word} {kind : ErrKind} {code : Code}
    (h : decodeWord roms w = .unsupported kind code) : code = causeCode kind w := by
  obtain ⟨-, hcode⟩ := raises_of_decodeWord h
  exact hcode

/-- Settles O35: R72's ranges are the complement of the repertoire's codes, and a word that raises a cause reports the field itself. -/
theorem unsupportedSpaceIsExact : Obligations.UnsupportedSpaceIsExact := by
  refine ⟨by decide, by decide, fun roms w =>
    ⟨?_, ?_, fun _ => code_of_decodeWord, fun _ => code_of_decodeWord, fun kind code hd => ?_⟩⟩
  · rw [decodeWord_unsupported_iff_raises, unsupportedOpcode_iff]
    rfl
  · rw [decodeWord_unsupported_iff_raises, unsupportedFunct_iff]
    rfl
  · obtain ⟨hraises, rfl⟩ := raises_of_decodeWord hd
    exact raisesUnsupported_of_decodeWord (decodeWord_of_raises builtRoms hraises)

/-- Settles O30: the decoder rejects each of the four words. -/
theorem unsupportedExamplesRaise : Obligations.UnsupportedExamplesRaise := by
  refine ⟨?_, ?_, ?_, ?_⟩ <;> exact raisesUnsupported_of_decodeWord (by decide)

end Sys2Proof.Machine
end

section
/-! SUPPORT. What a step does for each kind of input: no input, a reset, an idle step, a word that a running or a halted block is presented
(40_decode_datapath.md R102, R106, R107; 70_reset_and_hazards.md R160, R161). -/

namespace Sys2Proof.Machine

/-! ### A step by its input -/

theorem step_of_nil {s : State} (h : s.inputs = []) : step s = .fault .inputExhausted := by
  rw [step, fetch_nil h]

theorem step_of_reset {s : State} {p : InPorts} {rest : List InPorts} (h : s.inputs = p :: rest) (hr : p.rst = true) :
    step s = .next (captureReset p rest s) := by
  rw [step, fetch_reset h hr]

theorem step_of_idle {s : State} {p : InPorts} {rest : List InPorts} (h : s.inputs = p :: rest) (hr : p.rst = false)
    (hv : p.inValid = false) : step s = .next (holdState rest s) := by
  rw [step, fetch_idle h hr hv]

/-- The two ends of a run (R106), or a step. -/
theorem step_ends_or_next (s : State) :
    (s.inputs = [] ∧ step s = .fault .inputExhausted) ∨
    ((s.halted = true ∧ ∃ p rest, s.inputs = p :: rest ∧ p.rst = false ∧ p.inValid = true) ∧ step s = .fault .halted) ∨
    ∃ t, step s = .next t := by
  cases hi : s.inputs with
  | nil => exact .inl ⟨rfl, step_of_nil hi⟩
  | cons p rest =>
    cases hr : p.rst with
    | true => exact .inr (.inr ⟨_, step_of_reset hi hr⟩)
    | false =>
      cases hv : p.inValid with
      | false => exact .inr (.inr ⟨_, step_of_idle hi hr hv⟩)
      | true =>
        cases hh : s.halted with
        | true => exact .inr (.inl ⟨⟨rfl, p, rest, rfl, hr, hv⟩, step_of_halted hi hr hv hh⟩)
        | false => exact .inr (.inr ⟨_, step_of_presents ⟨hi, hr, hv, hh⟩⟩)

theorem step_eq_inputExhausted_iff (s : State) : step s = .fault .inputExhausted ↔ s.inputs = [] := by
  refine ⟨fun h => ?_, step_of_nil⟩
  rcases step_ends_or_next s with ⟨hi, -⟩ | ⟨-, hs⟩ | ⟨t, hs⟩
  · exact hi
  · exact nomatch h.symm.trans hs
  · exact nomatch h.symm.trans hs

theorem step_eq_halted_iff (s : State) :
    step s = .fault .halted ↔ s.halted = true ∧ ∃ p rest, s.inputs = p :: rest ∧ p.rst = false ∧ p.inValid = true := by
  refine ⟨fun h => ?_, fun ⟨hh, _, _, hi, hr, hv⟩ => step_of_halted hi hr hv hh⟩
  rcases step_ends_or_next s with ⟨-, hs⟩ | ⟨hend, -⟩ | ⟨t, hs⟩
  · exact nomatch h.symm.trans hs
  · exact hend
  · exact nomatch h.symm.trans hs

/-- Settles O20: each end of the run has its fault, and where neither holds the step answers a next state. -/
theorem runEndsExactlyWhen : Obligations.RunEndsExactlyWhen := by
  refine fun s => ⟨step_eq_inputExhausted_iff s, step_eq_halted_iff s, ?_⟩
  rcases step_ends_or_next s with ⟨-, hs⟩ | ⟨-, hs⟩ | hs
  · exact .inr (.inl hs)
  · exact .inr (.inr hs)
  · exact .inl hs

/-! ### The decoded instruction (R102) -/

/-- Settles O10: a meaning consumes the word on the ports with an `Ok`, which leaves HALTED alone. -/
theorem decodingLeavesTheRestUnchanged : Obligations.DecodingLeavesTheRestUnchanged := by
  intro i s t h
  obtain ⟨p, rest, hi, rfl⟩ := exec_next h
  rw [hi]
  exact ⟨rfl, rfl, haltedAfter_of_ok s rfl, rfl, List.cons_ne_nil _ _, rfl, _, rfl, rfl, rfl⟩

/-- Settles O11: the step is the meaning of an instruction that the decoder read, which moves past the word. -/
theorem stepRunsDecodedInstruction : Obligations.StepRunsDecodedInstruction := by
  intro s p rest i hp hd
  obtain ⟨hwf, -⟩ := encode_of_decodeWord hd
  exact ⟨hwf, step_of_instr hp hd, _, step_of_presents hp, rfl⟩

/-- The placed word is presented, unless the block is halted. -/
theorem presents_withFetchWord (s : State) (nbits w : Nat) (h : s.halted = false) :
    ∃ p rest, Presents (s.withFetchWord nbits w) p rest ∧ p.wordIn = tableWord nbits w :=
  fetch_eq_word (fetch_withFetchWord s nbits w h)

/-- Settles O12: the placed word is presented, and it is the one that `decodeTableWord` reads. -/
theorem placedWordRunsNext : Obligations.PlacedWordRunsNext := by
  intro s nbits w i hh hd
  obtain ⟨p, rest, hp, hw⟩ := presents_withFetchWord s nbits w hh
  rw [decodeTableWord_eq_some_iff, ← hw] at hd
  exact ⟨step_of_instr hp (by rw [State.roms_eq, hd]), _, step_of_presents hp⟩

/-! ### The output ports (R34, R161) -/

theorem outPorts_of_none {t : State} (h : t.out = none) : t.outPorts = silentPorts := by
  simp [State.outPorts, h]

/-- With a result on the ports `out_valid` is 1 and the `halted` port shows HALTED. -/
theorem outPorts_valid_halted {t : State} {r : Result} (h : t.out = some r) :
    t.outPorts.outValid = true ∧ t.outPorts.halted = some t.halted := by
  cases r <;> simp [State.outPorts, h, okPorts, errPorts]

/-! ### Idle steps (R157) -/

/-- Settles O19: an idle step only takes the entry off the inputs and the result off the ports. -/
theorem idleStepHoldsState : Obligations.IdleStepHoldsState :=
  fun _ _ _ hi hr hv => ⟨_, step_of_idle hi hr hv, rfl, rfl, rfl, rfl, rfl, rfl, outPorts_of_none rfl⟩

/-! ### The block step of R102 -/

theorem datapathStep_of_halted (roms : Roms) (cfg : Config) (seqAddr wordIn addrIn : Word) :
    datapathStep roms cfg seqAddr true wordIn addrIn = none := rfl

/-- The block step of a running block, in the machine's terms. -/
theorem datapathStep_of_running (s : State) (p : InPorts) :
    datapathStep s.roms s.cfg s.seqAddr false p.wordIn p.addrIn =
      some (s.nextSeqAddr, (datapathDecode s.roms p.wordIn (s.curAddr p) s.cfg.naming).isErr && s.cfg.strict,
        datapathDecode s.roms p.wordIn (s.curAddr p) s.cfg.naming) := rfl

theorem haltedAfter_of_running {s : State} (h : s.halted = false) (r : Result) : haltedAfter s r = (r.isErr && s.cfg.strict) := by
  rw [haltedAfter, h, Bool.false_or]

/-- Settles O13: an idle step holds the state; a halted block has neither a block step nor a step on a word; a running block consumes the
word with the result and the new HALTED of its block step. -/
theorem stepFollowsBlockStep : Obligations.StepFollowsBlockStep := by
  refine fun s p rest hi hr => ⟨step_of_idle hi hr, fun hv => ?_⟩
  cases hh : s.halted with
  | true =>
    rw [datapathStep_of_halted]
    exact ⟨rfl, step_of_halted hi hr hv hh⟩
  | false =>
    rw [datapathStep_of_running]
    dsimp only
    rw [← haltedAfter_of_running hh]
    exact ⟨_, step_of_presents ⟨hi, hr, hv, hh⟩, rfl, outPorts_valid_halted (consume_out s rest _)⟩

/-! ### Reset (R160, R161) -/

/-- A reset answers the reset state of the captured configuration, the rest of the inputs being still to come. -/
theorem captureReset_eq (p : InPorts) (rest : List InPorts) (s : State) :
    captureReset p rest s = { State.resetWith p.cfgIn with inputs := rest } := by
  rw [captureReset, State.roms_eq]
  rfl

/-- No step but a reset changes CFG or clears HALTED (R30, R32). -/
theorem step_next_of_no_reset {s t : State} (h : step s = .next t) (hno : ∀ p rest, s.inputs = p :: rest → p.rst = false) :
    t.cfg = s.cfg ∧ (s.halted = true → t.halted = true) := by
  rcases step_next h with ⟨p, rest, hi, hr, -⟩ | ⟨_, _, -, -, -, rfl⟩ | ⟨_, _, hp, rfl⟩
  · exact absurd hr (Bool.eq_false_iff.mp (hno p rest hi))
  · exact ⟨rfl, id⟩
  · exact ⟨rfl, fun hh => nomatch hh.symm.trans hp.running⟩

/-- Settles O21: a reset captures its ports, and the other steps keep CFG and a set HALTED. -/
theorem resetCapturesConfiguration : Obligations.ResetCapturesConfiguration := by
  refine ⟨fun _ _ _ hi hr => ⟨_, step_of_reset hi hr, rfl, rfl, rfl, rfl, rfl⟩, fun s t h hchange => ?_⟩
  by_contra hno
  push Not at hno
  obtain ⟨hcfg, hhalted⟩ := step_next_of_no_reset h fun p rest hi => Bool.eq_false_iff.mpr (hno p rest hi)
  rcases hchange with hchange | ⟨hset, hclear⟩
  · exact hchange hcfg
  · exact nomatch hclear.symm.trans (hhalted hset)

/-- Settles O17: a word finds no step, an idle step holds the state, a reset answers the reset state, and only a reset clears HALTED. -/
theorem haltedBlockHasNoStep : Obligations.HaltedBlockHasNoStep := by
  refine fun s p rest hh hi => ⟨fun hr hv => step_of_halted hi hr hv hh, step_of_idle hi, fun hr => ?_, fun t hstep hclear => ?_⟩
  · rw [step_of_reset hi hr, captureReset_eq]
    rfl
  · obtain ⟨-, hreset⟩ := resetCapturesConfiguration
    obtain ⟨p', rest', hi', hr⟩ := hreset s t hstep (.inr ⟨hh, hclear⟩)
    obtain ⟨rfl, -⟩ := List.cons.inj (hi.symm.trans hi')
    exact hr

/-- Settles O18: HALTED after a consumed word is `haltedAfter`, and a halted block that takes a step is reset or held. -/
theorem haltedFlagRule : Obligations.HaltedFlagRule := by
  refine ⟨resetWith_halted, fun s p rest hp => ⟨_, _, step_of_presents hp, rfl, ?_⟩, fun s t h hh => ?_⟩
  · rw [consume_halted, haltedAfter_of_running hp.running, Bool.and_eq_true, and_comm]
  · rcases step_next h with ⟨p, rest, hi, hr, rfl⟩ | ⟨p, rest, hi, -, hv, rfl⟩ | ⟨p, rest, hp, -⟩
    · exact .inl ⟨p, rest, hi, hr, rfl⟩
    · exact .inr ⟨p, rest, hi, hv, hh, rfl, rfl⟩
    · exact nomatch hh.symm.trans hp.running

/-- Settles O22: a reset leaves no result on the ports, and the sequencer at BASE with the first word to come. -/
theorem noResultAfterReset : Obligations.NoResultAfterReset := by
  refine fun s p rest hi hr => ⟨_, step_of_reset hi hr, outPorts_of_none rfl, fun q rest' hrest hqr hqv hseq => ?_⟩
  have hq : Presents (captureReset p rest s) q rest' := ⟨hrest, hqr, hqv, rfl⟩
  refine ⟨_, _, step_of_presents hq, rfl, ?_⟩
  rw [datapathDecode_addr, curAddr_on hseq, nextSeqAddr_on hseq, captureReset_seqAddr]

/-- Settles O23, field by field. -/
theorem resetStateValues : Obligations.ResetStateValues :=
  ⟨fun _ => ⟨rfl, rfl, rfl, rfl, rfl, outPorts_of_none rfl⟩, rfl, rfl, rfl, rfl, rfl, rfl⟩

end Sys2Proof.Machine
end

section
/-! SUPPORT. The invariant of a run, and what a run of presented words leaves: one result a word, in order (10_state.md R24 to R27, R30;
40_decode_datapath.md R101, R106; 60_exceptions.md R146, R147). -/

namespace Sys2Proof.Machine

/-! ### The invariant at reset and along idle steps -/

/-- A running block at BASE with no result is at the beginning of a run. -/
theorem runInv_of_no_results {s : State} (hseq : s.seqAddr = s.cfg.base) (hh : s.halted = false) (hres : s.results = [])
    (hout : s.out = none) : RunInv s where
  counter _ := by simp [hseq, hres]
  counterOff _ := hseq
  addresses := by simp [hres]
  decoded := by simp [hres]
  haltedByErr := by simp [hh]
  strictOk := by simp [hres]
  strictRunning := by simp [hres]
  presented := .inl hout

/-- Settles O57: reset leaves SEQ_ADDR at BASE, HALTED clear and no result. -/
theorem runInvariantAtReset : Obligations.RunInvariantAtReset :=
  ⟨fun _ => runInv_of_no_results rfl rfl rfl rfl, runInv_of_no_results rfl rfl rfl rfl⟩

theorem runInv_captureReset (p : InPorts) (rest : List InPorts) (s : State) : RunInv (captureReset p rest s) :=
  runInv_of_no_results rfl rfl rfl rfl

theorem RunInv.holdState {s : State} (h : RunInv s) (rest : List InPorts) : RunInv (holdState rest s) where
  counter := h.counter
  counterOff := h.counterOff
  addresses := h.addresses
  decoded := h.decoded
  haltedByErr := h.haltedByErr
  strictOk := h.strictOk
  strictRunning := h.strictRunning
  presented := .inl rfl

/-! ### The invariant along consumed words -/

/-- Four for each of `n` steps, then four for one more. -/
theorem add_four_mul_succ (a : Word) (n : Nat) : a + BitVec.ofNat 32 (4 * n) + 4#32 = a + BitVec.ofNat 32 (4 * (n + 1)) := by
  rw [BitVec.add_assoc, ← BitVec.ofNat_add, Nat.mul_succ]

/-- Sequencer on: the next word's address is BASE plus 4 for each result with its own. -/
theorem RunInv.nextSeqAddr {s : State} (h : RunInv s) (hon : s.cfg.seqEn = true) :
    s.nextSeqAddr = s.cfg.base + BitVec.ofNat 32 (4 * (s.results.length + 1)) := by
  rw [nextSeqAddr_on hon, h.counter hon, add_four_mul_succ]

/-- A running block that consumes a word keeps the invariant, when the result is the datapath's for the word at CUR_ADDR. -/
theorem RunInv.consume {s : State} (h : RunInv s) (hh : s.halted = false) (rest : List InPorts) {r : Result}
    (haddr : s.cfg.seqEn = true → r.addr = s.nextSeqAddr) (hr : r = datapathDecode s.roms r.word r.addr s.cfg.naming) :
    RunInv (s.consume rest r) where
  counter hon := by simpa using h.nextSeqAddr hon
  counterOff hoff := (nextSeqAddr_off (s := s) hoff).trans (h.counterOff hoff)
  addresses hon k r' hk := by
    rw [consume_results, List.getElem?_append] at hk
    split at hk
    · exact h.addresses hon k r' hk
    · next hlen =>
      obtain ⟨hk', rfl⟩ : k - s.results.length = 0 ∧ r = r' := by
        simpa [List.getElem?_singleton] using hk
      rw [haddr hon, h.nextSeqAddr hon, show k = s.results.length by omega, consume_cfg]
  decoded := List.forall_mem_append.mpr ⟨h.decoded, List.forall_mem_singleton.mpr hr⟩
  haltedByErr hhalted := by
    rw [consume_halted, haltedAfter_of_running hh, Bool.and_eq_true] at hhalted
    obtain ⟨herr, hstrict⟩ := hhalted
    cases r with
    | ok r => cases herr
    | err e => exact ⟨hstrict, e, List.getLast?_concat⟩
  strictOk hstrict := by
    rw [consume_results, List.dropLast_concat]
    exact h.strictRunning hstrict hh
  strictRunning hstrict hrunning := by
    have hstrict' : s.cfg.strict = true := hstrict
    rw [consume_halted, haltedAfter_of_running hh, hstrict', Bool.and_true] at hrunning
    exact List.forall_mem_append.mpr ⟨h.strictRunning hstrict hh, List.forall_mem_singleton.mpr hrunning⟩
  presented := .inr List.getLast?_concat.symm

@[simp] theorem datapathDecode_word (roms : Roms) (w a : Word) (n : Naming) : (datapathDecode roms w a n).word = w := by
  rw [datapathDecode_eq]
  cases decodeWord roms w <;> rfl

/-- Settles O56: a reset begins a new run, an idle step holds all that the invariant speaks of, and a word is consumed with the datapath's
result at CUR_ADDR. -/
theorem runInvariantKeptByEveryStep : Obligations.RunInvariantKeptByEveryStep := by
  intro s t h hstep
  rcases step_next hstep with ⟨p, rest, -, -, rfl⟩ | ⟨p, rest, -, -, -, rfl⟩ | ⟨p, rest, hp, rfl⟩
  · exact runInv_captureReset p rest s
  · exact h.holdState rest
  · refine h.consume hp.running rest (fun hon => ?_) ?_
    · rw [datapathDecode_addr, curAddr_on hon]
    · rw [datapathDecode_word, datapathDecode_addr]

/-! ### Runs of presented words -/

/-- CUR_ADDR of the `k`-th word (from 0) presented from `s` on, which is on `p` (R23, R25, R27). -/
def runAddr (s : State) (k : Nat) (p : InPorts) : Word :=
  if s.cfg.seqEn then s.seqAddr + BitVec.ofNat 32 (4 * (k + 1)) else p.addrIn

/-- The result of the `k`-th word (from 0) presented from `s` on, which is on `p` (R101). -/
def runResult (s : State) (k : Nat) (p : InPorts) : Result :=
  datapathDecode s.roms p.wordIn (runAddr s k p) s.cfg.naming

/-- SEQ_ADDR after `n` words (R25, R27). -/
def runSeqAddr (s : State) (n : Nat) : Word :=
  if s.cfg.seqEn then s.seqAddr + BitVec.ofNat 32 (4 * n) else s.seqAddr

theorem runResult_zero (s : State) (p : InPorts) :
    runResult s 0 p = datapathDecode s.roms p.wordIn (s.curAddr p) s.cfg.naming := by
  rw [curAddr_eq]
  rfl

theorem add_four_add_mul (a : Word) (n : Nat) : a + 4#32 + BitVec.ofNat 32 (4 * n) = a + BitVec.ofNat 32 (4 * (n + 1)) := by
  rw [BitVec.add_assoc, BitVec.add_comm 4#32, ← BitVec.add_assoc, add_four_mul_succ]

/-- Where one word was consumed, the words that follow count from the next one. -/
theorem runResult_consume (s : State) (rest : List InPorts) (r : Result) :
    runResult (s.consume rest r) = fun k => runResult s (k + 1) := by
  funext k p
  cases h : s.cfg.seqEn with
  | true => simp [runResult, runAddr, h, nextSeqAddr_on h, add_four_add_mul]
  | false => simp [runResult, runAddr, h]

theorem runSeqAddr_consume (s : State) (rest : List InPorts) (r : Result) (n : Nat) :
    runSeqAddr (s.consume rest r) n = runSeqAddr s (n + 1) := by
  cases h : s.cfg.seqEn with
  | true => simp [runSeqAddr, h, nextSeqAddr_on h, add_four_add_mul]
  | false => simp [runSeqAddr, h, nextSeqAddr_off h]

/-- From `s` to `t` the words of `ps` were consumed, each with its result, in order, and `rest` is still to come. -/
structure Consumes (s t : State) (ps rest : List InPorts) : Prop where
  results : t.results = s.results ++ ps.mapIdx (runResult s)
  seqAddr : t.seqAddr = runSeqAddr s ps.length
  cfg : t.cfg = s.cfg
  inputs : t.inputs = rest

theorem Consumes.nil {s : State} {rest : List InPorts} (h : s.inputs = rest) : Consumes s s [] rest where
  results := (List.append_nil _).symm
  seqAddr := by simp [runSeqAddr]
  cfg := rfl
  inputs := h

/-- One word more, before the others. -/
theorem Consumes.cons {s t : State} {p : InPorts} {ps rest more : List InPorts}
    (h : Consumes (s.consume more (runResult s 0 p)) t ps rest) : Consumes s t (p :: ps) rest where
  results := by
    rw [h.results, consume_results, runResult_consume, List.append_assoc, List.singleton_append, List.mapIdx_cons]
  seqAddr := h.seqAddr.trans (runSeqAddr_consume s more _ ps.length)
  cfg := h.cfg
  inputs := h.inputs

theorem step_of_presents_runResult {s : State} {p : InPorts} {rest : List InPorts} (h : Presents s p rest) :
    step s = .next (s.consume rest (runResult s 0 p)) := by
  rw [runResult_zero, step_of_presents h]

/-- A step on a word that answers a next state consumed the word. -/
theorem presents_of_step_next {s t : State} {p : InPorts} {rest : List InPorts} (h : step s = .next t) (hi : s.inputs = p :: rest)
    (hr : p.rst = false) (hv : p.inValid = true) : Presents s p rest := by
  cases hh : s.halted with
  | false => exact ⟨hi, hr, hv, hh⟩
  | true => exact nomatch h.symm.trans (step_of_halted hi hr hv hh)

/-- A running block that is not strict consumes every word it is presented, and runs on. -/
theorem run_of_not_strict {ps rest : List InPorts} {s : State} (hwords : AllWords ps) (hin : s.inputs = ps ++ rest)
    (hrunning : s.halted = false) (hstrict : s.cfg.strict = false) :
    ∃ t : State, Host.Core.run Sys2Proof.core ps.length s = .next t ∧ t.halted = false ∧ Consumes s t ps rest := by
  induction ps generalizing s with
  | nil => exact ⟨s, rfl, hrunning, .nil hin⟩
  | cons p ps ih =>
    obtain ⟨⟨hr, hv⟩, hwords⟩ := List.forall_mem_cons.mp hwords
    have hp : Presents s p (ps ++ rest) := ⟨hin, hr, hv, hrunning⟩
    obtain ⟨t, hrun, hh, hconsumes⟩ := ih (s := s.consume (ps ++ rest) (runResult s 0 p)) hwords rfl
      ((haltedAfter_of_not_strict hstrict _).trans hrunning) hstrict
    exact ⟨t, (run_of_next (step_of_presents_runResult hp) _).trans hrun, hh, hconsumes.cons⟩

/-- Any run over presented words, strict or not, that answers a next state after `n` steps consumed the first `n` of them. -/
theorem consumes_of_run_next {n : Nat} {ps : List InPorts} {s t : State} (hwords : AllWords ps) (hin : s.inputs = ps)
    (h : Host.Core.run Sys2Proof.core n s = .next t) : n ≤ ps.length ∧ Consumes s t (ps.take n) (ps.drop n) := by
  induction n generalizing s ps with
  | zero =>
    rw [run_zero] at h
    cases h
    exact ⟨Nat.zero_le _, .nil hin⟩
  | succ n ih =>
    obtain ⟨u, hstep, hrun⟩ := run_succ_next h
    cases ps with
    | nil => exact nomatch hstep.symm.trans (step_of_nil hin)
    | cons p ps =>
      obtain ⟨⟨hr, hv⟩, hwords⟩ := List.forall_mem_cons.mp hwords
      have hu := step_of_presents_runResult (presents_of_step_next hstep hin hr hv)
      rw [hstep, Host.Outcome.next.injEq] at hu
      subst hu
      obtain ⟨hn, hconsumes⟩ := ih hwords rfl hrun
      exact ⟨Nat.succ_le_succ hn, hconsumes.cons⟩

/-- Settles O14: the run consumes the words, and what `Consumes` says of the results and of SEQ_ADDR is the statement's own. -/
theorem runDecodesEveryWordInOrder : Obligations.RunDecodesEveryWordInOrder := by
  intro s ps rest hwords hin hrunning hstrict
  obtain ⟨t, hrun, hh, hconsumes⟩ := run_of_not_strict hwords hin hrunning hstrict
  exact ⟨t, hrun, hconsumes.results, hconsumes.seqAddr, hh, hconsumes.cfg, hconsumes.inputs⟩

/-- Settles O15: the run consumed the first `n` words, and from the reset state they are numbered from BASE. -/
theorem sequencedWordsAreFourApart : Obligations.SequencedWordsAreFourApart := by
  intro c ps n t hon hwords hrun
  obtain ⟨hn, hconsumes⟩ := consumes_of_run_next hwords rfl hrun
  have hres := hconsumes.results
  rw [resetWith_results, List.nil_append] at hres
  refine ⟨?_, fun k p hk hp => ?_⟩
  · rw [hres, List.length_mapIdx, List.length_take, Nat.min_eq_left hn]
  · rw [hres, List.getElem?_mapIdx, List.getElem?_take_of_lt hk, hp]
    simp [runResult, runAddr, hon]

end Sys2Proof.Machine
end

section
/-! SUPPORT. What a step does not read: the ignored bits of an R-format word, SEQ_ADDR with the sequencer off, earlier outputs and results
(30_encoding.md R63; 10_state.md R27, R31, R38; 60_exceptions.md R154). -/

namespace Sys2Proof.Machine

/-- A state with the same inputs and HALTED is presented the same word. -/
theorem Presents.of_same_inputs {s s' : State} {p : InPorts} {rest : List InPorts} (h : Presents s p rest)
    (hin : s'.inputs = s.inputs) (hh : s'.halted = s.halted) : Presents s' p rest :=
  ⟨hin.trans h.inputs, h.noReset, h.valid, hh.trans h.running⟩

/-! ### The ignored bits (R63) -/

/-- Words that agree under a mask agree on a field that the mask covers. -/
theorem extractLsb'_eq_of_mask {w w' mask : Word} (h : w' &&& mask = w &&& mask) {lo n : Nat}
    (hmask : mask.extractLsb' lo n = BitVec.allOnes n) : w'.extractLsb' lo n = w.extractLsb' lo n := by
  have hfield := congrArg (BitVec.extractLsb' lo n) h
  rwa [BitVec.extractLsb'_and, BitVec.extractLsb'_and, hmask, BitVec.and_allOnes, BitVec.and_allOnes] at hfield

theorem decodeR_eq_of_mask {w w' : Word} (h : w' &&& 0xFFFFF83F#32 = w &&& 0xFFFFF83F#32) : decodeR w' = decodeR w := by
  have hrs : rsOf w' = rsOf w := extractLsb'_eq_of_mask h (by decide)
  have hrt : rtOf w' = rtOf w := extractLsb'_eq_of_mask h (by decide)
  have hrd : rdOf w' = rdOf w := extractLsb'_eq_of_mask h (by decide)
  have hfunct : functOf w' = functOf w := extractLsb'_eq_of_mask h (by decide)
  rw [decodeR, decodeR, hrs, hrt, hrd, hfunct]

/-- The datapath takes from an R-format word its opcode and decoded fields, and the record's copy of the word. -/
theorem datapathDecode_setWord {w w' : Word} (hop : opcodeOf w = 0#6) (hop' : opcodeOf w' = 0#6) (hfields : decodeR w' = decodeR w)
    (roms : Roms) (a : Word) (n : Naming) :
    datapathDecode roms w' a n = (datapathDecode roms w a n).setWord w' := by
  simp only [datapathDecode, hop, hop', hfields, if_true]
  cases resolve roms.r (decodeR w).funct <;> rfl

@[simp] theorem setWord_isErr (w : Word) (r : Result) : (r.setWord w).isErr = r.isErr := by
  cases r <;> rfl

/-- HALTED after a step is a matter of whether the result is an `Err`. -/
theorem haltedAfter_eq_of_isErr (s : State) {r r' : Result} (h : r'.isErr = r.isErr) : haltedAfter s r' = haltedAfter s r := by
  rw [haltedAfter, haltedAfter, h]

/-- Settles O40: the mask covers the opcode and every R-format field, so the datapath's results differ in the recorded word only. -/
theorem ignoredBitsAreNotRead : Obligations.IgnoredBitsAreNotRead := by
  intro s p rest w' hp hop hmask
  have hop' : opcodeOf w' = 0#6 := (extractLsb'_eq_of_mask hmask (by decide)).trans hop
  have hp' : Presents { s with inputs := { p with wordIn := w' } :: rest } { p with wordIn := w' } rest :=
    ⟨rfl, hp.noReset, hp.valid, hp.running⟩
  have hresult := datapathDecode_setWord hop hop' (decodeR_eq_of_mask hmask) s.roms (s.curAddr p) s.cfg.naming
  have herr := (congrArg Result.isErr hresult).trans (setWord_isErr _ _)
  exact ⟨_, _, _, _, step_of_presents hp, step_of_presents hp', rfl, rfl, hresult, herr, rfl, haltedAfter_eq_of_isErr s herr, rfl, rfl⟩

/-! ### SEQ_ADDR with the sequencer off (R27) -/

/-- With the sequencer off, CUR_ADDR is `addr_in`, and the consuming step carries SEQ_ADDR along. -/
theorem consume_setSeqAddr {s : State} (h : s.cfg.seqEn = false) (a : Word) (rest : List InPorts) (r : Result) :
    ({ s with seqAddr := a } : State).consume rest r = { s.consume rest r with seqAddr := a } := by
  rw [State.consume, nextSeqAddr_off (s := { s with seqAddr := a }) h]
  rfl

/-- Settles O54: the address, hence the result, is the same, and the new SEQ_ADDR stays. -/
theorem seqAddrUnreadWhenOff : Obligations.SeqAddrUnreadWhenOff := by
  intro s p rest a hp hoff
  have hp' : Presents { s with seqAddr := a } p rest := hp.of_same_inputs rfl rfl
  refine ⟨_, step_of_presents hp, nextSeqAddr_off hoff, ?_⟩
  rw [step_of_presents hp', consume_setSeqAddr hoff, curAddr_off hoff, curAddr_off (s := { s with seqAddr := a }) hoff]

/-! ### Earlier outputs and results (R31, R38) -/

/-- Settles O55: both ends of a run are conditions on the inputs and HALTED, and each kind of step writes the new output and the state
elements from the others. -/
theorem earlierResultsAreNotReadBack : Obligations.EarlierResultsAreNotReadBack := by
  refine fun s o rs => ⟨fun f => ?_, fun t h => ?_⟩
  · cases f with
    | inputExhausted => rw [step_eq_inputExhausted_iff, step_eq_inputExhausted_iff]
    | halted => rw [step_eq_halted_iff, step_eq_halted_iff]
  · rcases step_next h with ⟨p, rest, hi, hr, rfl⟩ | ⟨p, rest, hi, hr, hv, rfl⟩ | ⟨p, rest, hp, rfl⟩
    · exact ⟨_, step_of_reset hi hr, rfl, rfl, rfl, rfl, rfl, rfl⟩
    · exact ⟨_, step_of_idle hi hr hv, rfl, rfl, rfl, rfl, rfl, rfl⟩
    · exact ⟨_, step_of_presents (hp.of_same_inputs rfl rfl), rfl, rfl, rfl, rfl, rfl, rfl⟩

end Sys2Proof.Machine
end

section
/-! SUPPORT. Which output ports carry a value after an `Ok` result (10_state.md R34; 40_decode_datapath.md R103). -/

namespace Sys2Proof.Machine

/-! ### The fields on the ports -/

/-- The fields that the decoder of a word's format reads (R91 to R93). -/
def fieldsOfWord (w : Word) : Fields :=
  if opcodeOf w = 0#6 then .r (decodeR w) else .i (decodeI w)

theorem fieldsOfWord_rFormat {w : Word} (h : opcodeOf w = 0#6) : fieldsOfWord w = .r (decodeR w) := if_pos h

theorem fieldsOfWord_iFormat {w : Word} (h : opcodeOf w ≠ 0#6) : fieldsOfWord w = .i (decodeI w) := if_neg h

theorem fieldsOpcode_fieldsOfWord (w : Word) : fieldsOpcode (fieldsOfWord w) = opcodeOf w := by
  by_cases h : opcodeOf w = 0#6
  · rw [fieldsOfWord_rFormat h, h]
    rfl
  · rw [fieldsOfWord_iFormat h]
    rfl

theorem fieldsRs_fieldsOfWord (w : Word) : fieldsRs (fieldsOfWord w) = rsOf w := by
  rw [fieldsOfWord]
  split <;> rfl

theorem fieldsRt_fieldsOfWord (w : Word) : fieldsRt (fieldsOfWord w) = rtOf w := by
  rw [fieldsOfWord]
  split <;> rfl

/-! ### The operands of a decoded word, by its format -/

theorem selectorOf_ne_zero (m : Mnem) : selectorOf m ≠ 0#6 := by
  cases m <;> decide

/-- The words with opcode 0 are those of the ARITH class, the I-format selectors being nonzero (R70, R71). -/
theorem opcodeOf_eq_zero_iff_arith {roms : Roms} {w : Word} {i : Instr} (hd : decodeWord roms w = .instr i) :
    opcodeOf w = 0#6 ↔ classOf i.mnem = .arith := by
  have hsel := selects_of_decodeWord hd
  rw [Selects] at hsel
  split at hsel
  · next hc =>
    obtain ⟨hop, -⟩ := hsel
    exact iff_of_true hop hc
  · next hc => exact iff_of_false (hsel ▸ selectorOf_ne_zero i.mnem) hc

theorem operandsFmt_of_decodeWord {roms : Roms} {w : Word} {i : Instr} (hd : decodeWord roms w = .instr i) (a : Word) :
    operandsFmt (operandsAt i a) = classify w := by
  by_cases hop : opcodeOf w = 0#6
  · rw [(classify_eq_rFormat_iff w).mpr hop, operandsFmt_eq_rFormat_iff, operandsClass_operandsAt]
    exact (opcodeOf_eq_zero_iff_arith hd).mp hop
  · rw [(classify_eq_iFormat_iff w).mpr hop, operandsFmt_eq_iFormat_iff, operandsClass_operandsAt]
    exact mt (opcodeOf_eq_zero_iff_arith hd).mpr hop

theorem operandsFields_of_decodeWord {roms : Roms} {w : Word} {i : Instr} (hd : decodeWord roms w = .instr i) (a : Word) :
    operandsFields (operandsAt i a) = fieldsOfWord w := by
  have hfmt := operandsFmt_of_decodeWord hd a
  rw [operandsAt_of_decodeWord hd] at hfmt ⊢
  rw [operandsFields_operandsOfWord, hfmt, fieldsOfWord]
  simp only [classify_eq_rFormat_iff]

theorem operandsTarget_of_branch {roms : Roms} {w : Word} {i : Instr} (hd : decodeWord roms w = .instr i)
    (hc : classOf i.mnem = .branch) (a : Word) : operandsTarget (operandsAt i a) = some (branchTarget a (immOf w)) := by
  rw [operandsAt_of_decodeWord hd, hc]
  rfl

theorem hasTarget_eq (m : Mnem) : hasTarget m = (decide (m = .beq) || decide (m = .bne)) := by
  cases m <;> rfl

/-! ### The statement -/

/-- Settles O52: the ports are those of the decoded instruction's result, whose fields and format are the word's own; the target port carries
a value exactly in the BRANCH class. -/
theorem okPortsValidWhen : Obligations.OkPortsValidWhen := by
  intro s p rest i hp hd
  have hfields := operandsFields_of_decodeWord hd (addressOf s p)
  have hfmt := operandsFmt_of_decodeWord hd (addressOf s p)
  have hports : (afterWord s rest (okResult s.cfg.naming i.mnem (operandsAt i (addressOf s p)) (addressOf s p) p.wordIn)
      s.halted).outPorts = okPorts _ s.halted := rfl
  rw [hfields, hfmt] at hports
  refine ⟨_, _, step_of_decodes hp hd, rfl, ?_⟩
  rw [hports]
  refine ⟨rfl, rfl, rfl, rfl, rfl, rfl, rfl, congrArg some (fieldsOpcode_fieldsOfWord _), congrArg some (fieldsRs_fieldsOfWord _),
    congrArg some (fieldsRt_fieldsOfWord _), fun hop => ?_, fun hop => ?_, congrArg some (hasTarget_eq _), fun hm => ?_, fun hm => ?_,
    rfl, rfl, congrArg some hp.running⟩
  · rw [fieldsOfWord_rFormat hop, (classify_eq_rFormat_iff _).mpr hop]
    exact ⟨rfl, rfl, rfl, rfl⟩
  · rw [fieldsOfWord_iFormat hop, (classify_eq_iFormat_iff _).mpr hop]
    exact ⟨rfl, rfl, rfl, rfl⟩
  · have hc := (classOf_eq_branch_iff i.mnem).mpr hm
    exact (if_pos (decide_eq_true hc)).trans (operandsTarget_of_branch hd hc _)
  · have hc : classOf i.mnem ≠ .branch := fun hc => not_or.mpr hm ((classOf_eq_branch_iff i.mnem).mp hc)
    exact if_neg (Bool.eq_false_iff.mp (decide_eq_false hc))

end Sys2Proof.Machine
end

section
/-! SUPPORT. The 32 register names in both naming modes (30_encoding.md R84, R86, R89). -/

namespace Sys2Proof.Machine

/-- A decimal numeral denotes its number, so no two numbers share one. -/
theorem dec_injective {n m : Nat} (h : dec n = dec m) : n = m := by
  obtain ⟨-, -, hn, -⟩ := dec_isShortestNumeral n
  obtain ⟨-, -, hm, -⟩ := dec_isShortestNumeral m
  rw [← hn, h, hm]

theorem abiName_injective : ∀ n m : RegIndex, abiName n = abiName m → n = m := by
  decide

theorem reg_injective (naming : Naming) {n m : RegIndex} (h : reg naming n = reg naming m) : n = m := by
  obtain ⟨-, hname⟩ := List.cons.inj h
  cases naming with
  | numeric => exact BitVec.eq_of_toNat_eq (dec_injective hname)
  | abi => exact abiName_injective n m hname

/-- The search of `parseReg` goes through all indices, and only the rendered one has its text. -/
theorem parseReg_reg (naming : Naming) (n : RegIndex) : parseReg naming (reg naming n) = some n := by
  have hmem : n ∈ (List.range 32).map (BitVec.ofNat 5) := List.mem_map.mpr ⟨n.toNat, List.mem_range.mpr n.isLt, by simp⟩
  have hfound : (parseReg naming (reg naming n)).isSome = true := List.find?_isSome.mpr ⟨n, hmem, beq_self_eq_true _⟩
  obtain ⟨m, hm⟩ := Option.isSome_iff_exists.mp hfound
  have htext : reg naming m = reg naming n := by simpa using List.find?_some hm
  rw [hm, reg_injective naming htext]

/-- Settles O47: rendering is injective in both modes, so the index that the search finds is the rendered one. -/
theorem registerNamesRoundTrip : Obligations.RegisterNamesRoundTrip :=
  fun naming => ⟨parseReg_reg naming, fun _ _ => reg_injective naming⟩

/-- Settles O48: an index below 32 is its own 5-bit value, and the ABI table is read name by name. -/
theorem registerNamesAsTabled : Obligations.RegisterNamesAsTabled := by
  refine ⟨List.map_congr_left fun n hn => ?_, by decide⟩
  have hvalue : (BitVec.ofNat 5 n).toNat = n := (BitVec.toNat_ofNat n 5).trans (Nat.mod_eq_of_lt (List.mem_range.mp hn))
  rw [reg, hvalue]
  rfl

end Sys2Proof.Machine
end
